-- ==== Sys2Proof/Word.lean ====
section
/-! DEFINITION. The block's value types (00_scope.md R7): every value is unsigned and of a fixed width. -/

namespace Sys2Proof

/-- A bit is 0 or 1 (R7). -/
abbrev Bit := BitVec 1

/-- An 8-bit value: an index field (R63), a status code (R140), a `PERM` entry (R28). -/
abbrev Byte := BitVec 8

/-- A 32-bit value: the accumulator, a command word, a response's data (R6, R21, R60, R71). -/
abbrev Word := BitVec 32

/-- A four-level symbol, a value in {0,1,2,3} (R91). -/
abbrev Symbol := BitVec 2

end Sys2Proof
end

