-- ==== Sys2Proof/Config.lean ====
section
/-! DEFINITION. What is fixed for one block and never changes as it runs: the sizes (00_scope.md R6), the
names of the status codes (60_exceptions.md R140), the parameter `SYNC` (R6, 10_state.md R29, 92_eei_decisions.md D8)
and the one free value the spec leaves open (70_reset_and_hazards.md R172). -/

namespace Sys2Proof

/-- `NINFO`, information bits per frame (R6). -/
abbrev Config.ninfo : Nat := 81

/-- `NCODED` and `NSYM`, coded bits and symbols per frame: 162 = 2 × `NINFO` (R6). -/
abbrev Config.ncoded : Nat := 162

/-- `PUSHMAX`, the largest bit count of one PUSH (R6). -/
abbrev Config.pushMax : Nat := 16

/-- The six outcomes a command can have (R140); their 8-bit codes are `Status.code`. -/
inductive Status where
  | ok
  | illegalOpcode
  | illegalField
  | range
  | overflow
  | notReady
  deriving DecidableEq, Repr

/-- The synchronization vector `SYNC[0..161]`, a parameter of the model: the source gives none of its values
(R6, R29, R93; 92_eei_decisions.md D8; assumption 5). It has no body, so a theorem holds for every vector. -/
opaque Config.sync : Fin 162 → Bit

/-- The default of R93, row by row. It is general knowledge and no fact of the source: a claim that needs it
takes `SyncIsDefault` as a hypothesis (assumption 5). -/
def Config.syncDefaultBits : List Bit :=
   [1, 1, 0, 0, 0, 0, 0, 0, 1, 0, 0, 0, 1, 1, 1, 0, 0, 0, 1, 0] ++
   [0, 1, 0, 1, 1, 1, 1, 0, 0, 0, 0, 0, 0, 0, 1, 0, 0, 1, 0, 1] ++
   [0, 0, 0, 0, 0, 0, 1, 0, 1, 1, 0, 0, 1, 1, 0, 1, 0, 0, 0, 1] ++
   [1, 0, 1, 0, 0, 0, 0, 1, 1, 0, 1, 0, 1, 0, 1, 0, 1, 0, 0, 1] ++
   [0, 0, 1, 0, 1, 1, 0, 0, 0, 1, 1, 0, 1, 0, 1, 0, 0, 0, 1, 0] ++
   [0, 0, 0, 0, 1, 0, 0, 1, 0, 0, 1, 1, 1, 0, 1, 1, 0, 0, 1, 1] ++
   [0, 1, 0, 0, 0, 1, 1, 1, 0, 0, 0, 0, 0, 1, 0, 1, 0, 0, 1, 1] ++
   [0, 0, 0, 0, 0, 0, 0, 1, 1, 0, 1, 0, 1, 1, 0, 0, 0, 1, 1, 0] ++
   [0, 0]

/-- `SYNC_default` as a vector (R93). -/
def Config.syncDefault (j : Fin 162) : Bit := Config.syncDefaultBits.getD j.val 0

/-- The named hypothesis `SYNC = SYNC_default` that R93 asks a claim about particular symbol values to carry. -/
def Config.SyncIsDefault : Prop := Config.sync = Config.syncDefault

/-- FREE VALUE (R172, assumption 6): whether the response of a command that is outstanding when reset is asserted
still reaches the host. The spec says it may be lost; the argument is `State.draws`, so that each such reset
has a value of its own. -/
opaque Config.responseSurvives : Nat → Bool

end Sys2Proof
end

