-- ==== Sys2Proof/Syntax.lean ====
section
/-! DEFINITION. The command set: one constructor per row of spec/opcode_table.json (30_encoding.md R64). -/

namespace Sys2Proof

/-- A command as the decoder delivers it (R60 to R65, R72). -/
inductive Instr where
  /-- NOP, format N (R101). -/
  | nop
  /-- CLEAR, format N (R102). -/
  | clear
  /-- PUSH, format P: the bit count `n = w[20:16]` and the data `d = w[15:0]` (R62, R67, R68, R103). -/
  | push (n : BitVec 5) (d : BitVec 16)
  /-- READSYM, format I: the index `x = w[7:0]` (R63, R69, R104). -/
  | readsym (x : Byte)
  /-- READCODE, format I (R105). -/
  | readcode (x : Byte)
  /-- READSTAT, format N (R106). -/
  | readstat
  /-- READACC, format N (R107). -/
  | readacc
  /-- READPERM, format I (R108). -/
  | readperm (x : Byte)
  /-- READSYNC, format I (R109). -/
  | readsync (x : Byte)
  /-- A word of the reserved opcode 0x9 with its other 28 bits (R65). -/
  | reserved9 (rest : BitVec 28)
  /-- A word of the reserved opcodes 0xA and 0xB with its other 29 bits (R65). -/
  | reservedAB (rest : BitVec 29)
  /-- A word of the reserved opcodes 0xC to 0xF with its other 30 bits (R65). -/
  | reservedCF (rest : BitVec 30)
  deriving DecidableEq, Repr

end Sys2Proof
end

