-- ==== Sys2Proof/WellFormed.lean ====
section
/-! DEFINITION. Which terms of `Instr` some command word stands for. The only field with values that no legal
word has is the bit count of PUSH (30_encoding.md R67): a Format I index of 162 to 255 is a legal word that fails
with RANGE when it is executed (R69), and a reserved opcode is illegal whatever its other bits hold (R65). -/

namespace Sys2Proof

/-- The legal bit counts of PUSH are 1..16 (R67). -/
def pushCountLegal (n : BitVec 5) : Bool := decide (1 ≤ n.toNat) && decide (n.toNat ≤ Config.pushMax)

/-- `i` is the command of some word the decoder accepts. -/
def Instr.wellFormed : Instr → Bool
  | .nop => true
  | .clear => true
  | .push n _ => pushCountLegal n
  | .readsym _ => true
  | .readcode _ => true
  | .readstat => true
  | .readacc => true
  | .readperm _ => true
  | .readsync _ => true
  | .reserved9 _ => true
  | .reservedAB _ => true
  | .reservedCF _ => true

end Sys2Proof
end

