-- ==== Sys2Proof/Decode.lean ====
section
/-! DEFINITION. The decoder, total on every 32-bit word (30_encoding.md R72), the encoder written from the same
formats (R61 to R63), and the opcode map as a table of masks and matches (R64). -/

namespace Sys2Proof

/-- What a word decodes to (R72): a command with its fields, or an illegal word with the status it raises. The
verdict ILLEGAL_OPCODE is the command of a reserved opcode here, since the opcode table gives those words rows
of their own (assumption 8); `illegal` is used with `illegalField` only. -/
inductive Verdict where
  | command (i : Instr)
  | illegal (e : Status)
  deriving DecidableEq, Repr

/-- The opcode field `OP = w[31:28]` (R60). -/
def opcodeField (w : Word) : BitVec 4 := w.extractLsb' 28 4

/-- Format N: bits [27:0] must be 0 (R61, R66). -/
def decodeN (w : Word) (i : Instr) : Verdict :=
  if w.extractLsb' 0 28 = 0 then .command i else .illegal .illegalField

/-- Format P: bits [27:21] must be 0 and the bit count legal (R62, R66, R67). -/
def decodeP (w : Word) : Verdict :=
  if w.extractLsb' 21 7 = 0 then
    if pushCountLegal (w.extractLsb' 16 5) then .command (.push (w.extractLsb' 16 5) (w.extractLsb' 0 16))
    else .illegal .illegalField
  else .illegal .illegalField

/-- Format I: bits [27:8] must be 0; the index is not checked here (R63, R66, R69, R72). -/
def decodeI (w : Word) (command : Byte → Instr) : Verdict :=
  if w.extractLsb' 8 20 = 0 then .command (command (w.extractLsb' 0 8)) else .illegal .illegalField

/-- The decoder of R72: the opcode alone selects the command and its format (R60, R64). -/
def decode (w : Word) : Verdict :=
  match (opcodeField w).toNat with
  | 0x0 => decodeN w .nop
  | 0x1 => decodeN w .clear
  | 0x2 => decodeP w
  | 0x3 => decodeI w .readsym
  | 0x4 => decodeI w .readcode
  | 0x5 => decodeN w .readstat
  | 0x6 => decodeN w .readacc
  | 0x7 => decodeI w .readperm
  | 0x8 => decodeI w .readsync
  | 0x9 => .command (.reserved9 (w.extractLsb' 0 28))
  | 0xA => .command (.reservedAB (w.extractLsb' 0 29))
  | 0xB => .command (.reservedAB (w.extractLsb' 0 29))
  | _ => .command (.reservedCF (w.extractLsb' 0 30))

/-- The word of a command, from the encodings of R101 to R109 and R65. -/
def encode : Instr → Word
  | .nop => 0x00000000#32
  | .clear => 0x10000000#32
  | .push n d => 0x20000000#32 ||| (n.setWidth 32 <<< 16) ||| d.setWidth 32
  | .readsym x => 0x30000000#32 ||| x.setWidth 32
  | .readcode x => 0x40000000#32 ||| x.setWidth 32
  | .readstat => 0x50000000#32
  | .readacc => 0x60000000#32
  | .readperm x => 0x70000000#32 ||| x.setWidth 32
  | .readsync x => 0x80000000#32 ||| x.setWidth 32
  | .reserved9 rest => 0x90000000#32 ||| rest.setWidth 32
  | .reservedAB rest => 0xA0000000#32 ||| rest.setWidth 32
  | .reservedCF rest => 0xC0000000#32 ||| rest.setWidth 32

/-- The command of a verdict, none for an illegal word. -/
def Verdict.instr? : Verdict → Option Instr
  | .command i => some i
  | .illegal _ => none

/-- A row of the opcode map (R64). -/
structure OpcodeRow where
  mask : Word
  pattern : Word
  deriving DecidableEq, Repr

/-- The row of R64 that a command belongs to. -/
def Instr.row : Instr → OpcodeRow
  | .nop => ⟨0xFFFFFFFF#32, 0x00000000#32⟩
  | .clear => ⟨0xFFFFFFFF#32, 0x10000000#32⟩
  | .push _ _ => ⟨0xFFE00000#32, 0x20000000#32⟩
  | .readsym _ => ⟨0xFFFFFF00#32, 0x30000000#32⟩
  | .readcode _ => ⟨0xFFFFFF00#32, 0x40000000#32⟩
  | .readstat => ⟨0xFFFFFFFF#32, 0x50000000#32⟩
  | .readacc => ⟨0xFFFFFFFF#32, 0x60000000#32⟩
  | .readperm _ => ⟨0xFFFFFF00#32, 0x70000000#32⟩
  | .readsync _ => ⟨0xFFFFFF00#32, 0x80000000#32⟩
  | .reserved9 _ => ⟨0xF0000000#32, 0x90000000#32⟩
  | .reservedAB _ => ⟨0xE0000000#32, 0xA0000000#32⟩
  | .reservedCF _ => ⟨0xC0000000#32, 0xC0000000#32⟩

/-- The opcode map of R64, in its order. -/
def opcodeMap : List OpcodeRow :=
  [Instr.row .nop, Instr.row .clear, Instr.row (.push 0 0), Instr.row (.readsym 0), Instr.row (.readcode 0),
   Instr.row .readstat, Instr.row .readacc, Instr.row (.readperm 0), Instr.row (.readsync 0),
   Instr.row (.reserved9 0), Instr.row (.reservedAB 0), Instr.row (.reservedCF 0)]

/-- A word selects a row when `(w & mask) = match` (R64). -/
def OpcodeRow.selects (r : OpcodeRow) (w : Word) : Bool := (w &&& r.mask) == r.pattern

/-- The instruction the decoder reads from a command word given as a number. -/
def decodeTableWord (nbits w : Nat) : Option Instr := (decode (BitVec.ofNat 32 (w % 2 ^ nbits))).instr?

end Sys2Proof
end

