-- ==== Sys2Proof/Machine/Encoder.lean ====
section
/-! DEFINITION. The convolutional encoder (40_core_functions.md R80 to R84; 90_conflicts.md C3, C5). -/

namespace Sys2Proof.Machine

/-- The generator polynomial `POLY0` (R81). -/
def POLY0 : Word := 0xF2D05351#32

/-- The generator polynomial `POLY1` (R81). -/
def POLY1 : Word := 0xE4613C47#32

/-- The number of 1 bits of `v` (R7). -/
def popcount (v : Word) : Nat := (List.range 32).countP fun k => v.getLsbD k

/-- `parity(v)`, 0 for an even and 1 for an odd number of set bits (R80). -/
def parity (v : Word) : Bit := BitVec.ofNat 1 (popcount v % 2)

/-- The accumulator after one information bit: shift left by one, keep 32 bits, OR in the bit (R82). -/
def shiftIn (acc : Word) (b : Bit) : Word := (acc <<< 1) ||| b.setWidth 32

/-- The encoder step `encstep(acc, b)`: the updated accumulator and the two parities read from it (R82). -/
def encstep (acc : Word) (b : Bit) : Word × Bit × Bit :=
  let acc' := shiftIn acc b
  (acc', parity (acc' &&& POLY0), parity (acc' &&& POLY1))

/-- The accumulator after the bits `m`, first bit first, starting from `acc` (R83). -/
def accFrom (acc : Word) (m : List Bit) : Word := m.foldl shiftIn acc

/-- The coded bits of `m`, in output order, starting from `acc` (R83, R44). -/
def convFrom (acc : Word) : List Bit → List Bit
  | [] => []
  | b :: m => (encstep acc b).2.1 :: (encstep acc b).2.2 :: convFrom (encstep acc b).1 m

/-- The coded bits of the first bits of a frame, which starts from `acc = 0` (R83, R111). -/
def convBits (m : List Bit) : List Bit := convFrom 0 m

theorem convFrom_length (acc : Word) (m : List Bit) : (convFrom acc m).length = 2 * m.length := by
  induction m generalizing acc with
  | nil => rfl
  | cons b m ih => simp only [convFrom, List.length_cons, ih]; omega

/-- An information message `m[0..80]` (R8). -/
abbrev Message := Vector Bit 81

/-- The encoder function `conv(m)`: 81 information bits to 162 coded bits (R83). -/
def conv (m : Message) : Vector Bit 162 :=
  ⟨(convBits m.toList).toArray, by simp [convBits, convFrom_length]⟩

end Sys2Proof.Machine
end

