-- ==== Sys2Proof/Machine/State.lean ====
section
/-! DEFINITION. The block's architectural state (10_state.md R20 to R27), the host's side of the command and
response channels (70_reset_and_hazards.md R177, R178), and the reasons a step could stop. -/

namespace Sys2Proof.Machine

/-- No step of this block ends in a fault, so this type has no constructor: every failing command is answered with
an error response and the block accepts the next command (R100, R141; assumption 13). Safe. -/
inductive Fault where
  deriving DecidableEq, Repr

/-- Why a step has no meaning. -/
inductive Refusal where
  /-- Raised by no arm: every row of the opcode table has its meaning. The host's interface asks for the name. Safe. -/
  | notModelled (mnemonic : String)
  deriving DecidableEq, Repr

/-- The one response of a command (R71): 8 bits of status, 32 bits of data. -/
structure Response where
  status : Byte
  data : Word
  deriving DecidableEq, Repr

/-- What the host may do to the block (R178): issue any 32-bit word, assert reset between commands (R170), or assert
reset while a command it issued is outstanding (R172). -/
inductive HostEvent where
  | command (w : Word)
  | reset
  | resetDuring (w : Word)
  deriving DecidableEq, Repr

/-- The state of the block and its two channels. `acc`, `nin`, `cb` and `lasterr` are the architectural state, the
tuple of R20; the last three fields are the model's own (assumptions 1, 2 and 6). -/
structure State where
  /-- `ACC`, the 32-bit shift-register accumulator (R21). -/
  acc : Word
  /-- `NIN`, the information-bit counter, 7 bits (R23). -/
  nin : BitVec 7
  /-- `CB[0..161]`, the coded-bit buffer: `none` for an unwritten entry (R24). -/
  cb : Vector (Option Bit) 162
  /-- `LASTERR`, the status code of the last failing command (R26). -/
  lasterr : Byte
  /-- The model's own: what the host does next, the first event first (assumption 1). -/
  inputs : List HostEvent
  /-- The model's own: the responses delivered to the host so far, in command order (R51; assumption 2). -/
  responses : List Response
  /-- The model's own: how many free values have been drawn (assumption 6). -/
  draws : Nat
  deriving DecidableEq, Repr

/-- The state right after reset (R170): the host has issued nothing and received nothing. -/
def State.reset : State where
  acc := 0x00000000#32
  nin := 0
  cb := Vector.replicate 162 none
  lasterr := 0x00#8
  inputs := []
  responses := []
  draws := 0

/-- What a step or a command ends in. -/
abbrev Result := Host.Outcome State Fault Refusal

end Sys2Proof.Machine
end

