-- ==== Sys2Proof/Machine/Flags.lean ====
section
/-! DEFINITION. The status codes (60_exceptions.md R140), `DONE` (10_state.md R25) and the STATUS word (R27). -/

namespace Sys2Proof

/-- The 8-bit code of a status (R140). -/
def Status.code : Status → Byte
  | .ok => 0x00#8
  | .illegalOpcode => 0x01#8
  | .illegalField => 0x02#8
  | .range => 0x03#8
  | .overflow => 0x04#8
  | .notReady => 0x05#8

namespace Machine

/-- `DONE`: every information bit of the frame has been consumed, `NIN = 81` (R25). -/
def State.done (s : State) : Bool := s.nin == 81#7

/-- The STATUS word: `NIN` in [6:0], `DONE` in [7], `LASTERR` in [15:8], 0 in [31:16] (R27, R106). -/
def statusWord (s : State) : Word :=
  (s.lasterr.setWidth 32 <<< 8) ||| ((if s.done then 1#32 else 0#32) <<< 7) ||| s.nin.setWidth 32

end Machine

end Sys2Proof
end

