-- ==== Sys2Proof/Machine/Ops.lean ====
section
/-! DEFINITION. The operations on the state that the commands share: answering, failing (the block's one
exception, 60_exceptions.md R141), clearing, and consuming information bits. There is no memory to read or write
(20_memory.md R40); the coded buffer is read and written here. -/

namespace Sys2Proof.Machine

/-- `respond(status, data)`: the single response of the current command (R9, R71). -/
def State.respond (e : Status) (data : Word) (s : State) : State :=
  { s with responses := s.responses ++ [⟨e.code, data⟩] }

/-- A command that succeeds, with its result (R71, R100). -/
def succeed (data : Word) (s : State) : Result := .next (s.respond .ok data)

/-- `LASTERR <- e` (R26). -/
def State.setLasterr (e : Status) (s : State) : State := { s with lasterr := e.code }

/-- `fail(e)`, the block's only exception: it writes `LASTERR`, answers `(e, 0)` and changes nothing else; the block
then accepts the next command, so there is no return from it (R100, R141, R142, R145, R146). -/
def fail (e : Status) (s : State) : Result := .next ((s.setLasterr e).respond e 0x00000000#32)

/-- The effect that CLEAR and reset share: every field of the architectural state at its reset value (R102, R170). -/
def State.clear (s : State) : State :=
  { s with acc := 0x00000000#32, nin := 0, cb := Vector.replicate 162 none, lasterr := 0x00#8 }

/-- `CB[i] <- b`, which marks the entry written (R9, R24). PUSH stores below index 162 only, since `NIN` is at most 80
when it consumes a bit (R103). -/
def writeCode (cb : Vector (Option Bit) 162) (i : Nat) (b : Bit) : Vector (Option Bit) 162 :=
  cb.setIfInBounds i (some b)

/-- Consume one information bit: the encoder step, its two coded bits at `2 × NIN` and `2 × NIN + 1`, the count
(R103's loop body). -/
def State.pushBit (s : State) (b : Bit) : State :=
  { s with
    acc := (encstep s.acc b).1
    cb := writeCode (writeCode s.cb (2 * s.nin.toNat) (encstep s.acc b).2.1)
      (2 * s.nin.toNat + 1) (encstep s.acc b).2.2
    nin := s.nin + 1 }

/-- Consume information bits in order (R103's loop). -/
def State.pushBits (s : State) (bs : List Bit) : State := bs.foldl State.pushBit s

/-- The coded bit at `i` where a command may read it: written, and below `2 × NIN` (R24, R105). -/
def State.readableCode (s : State) (i : Fin 162) : Option Bit :=
  if i.val < 2 * s.nin.toNat then s.cb.get i else none

end Sys2Proof.Machine
end

