-- ==== Sys2Proof/Machine/Control.lean ====
section
/-! DEFINITION. The control commands NOP and CLEAR (41_commands.md R101, R102). -/

namespace Sys2Proof.Machine

/-- NOP: the response `(0x00, 0)` and no other effect (R101). -/
def execNop (s : State) : Result := succeed 0x00000000#32 s

/-- CLEAR begins a new frame; it never fails (R102). -/
def execClear (s : State) : Result := succeed 0x00000000#32 s.clear

end Sys2Proof.Machine
end

