-- ==== Sys2Proof/Machine/Operands.lean ====
section
/-! DEFINITION. The two operand forms (30_encoding.md R67 to R69; 20_memory.md R43). -/

namespace Sys2Proof.Machine

/-- The bits a PUSH consumes, in order: `d[n-1]` first, `d[0]` last; `d[15:n]` is ignored (R43, R68). -/
def pushBitsOf (n : BitVec 5) (d : BitVec 16) : List Bit :=
  (List.range n.toNat).reverse.map fun t => d.extractLsb' t 1

/-- The index of a Format I command: `x` zero-extended, legal in 0..161 and none outside every space (R40, R69). -/
def indexOf (x : Byte) : Option (Fin 162) :=
  if h : x.toNat < 162 then some ⟨x.toNat, h⟩ else none

end Sys2Proof.Machine
end

