-- ==== Sys2Proof/Machine/Encoding.lean ====
section
/-! DEFINITION. The encoding command PUSH (41_commands.md R103). -/

namespace Sys2Proof.Machine

/-- PUSH consumes `n` information bits, all or none (R49, R103). The illegal counts, which the decoder catches before
the command runs, raise ILLEGAL_FIELD here too (R67; assumption 9). -/
def execPush (n : BitVec 5) (d : BitVec 16) (s : State) : Result :=
  if pushCountLegal n then
    if s.nin.toNat + n.toNat > Config.ninfo then fail .overflow s
    else
      let t := s.pushBits (pushBitsOf n d)
      succeed (t.nin.setWidth 32) t
  else fail .illegalField s

end Sys2Proof.Machine
end

