-- ==== Sys2Proof/Machine/Interleaver.lean ====
section
/-! DEFINITION. The bit-reversal interleaver and its permutation ROM (40_core_functions.md R85 to R90, R94;
10_state.md R28). -/

namespace Sys2Proof.Machine

/-- `rev8(i)`: bit `k` of the result is bit `7-k` of `i` (R85). -/
def rev8 (i : Byte) : Byte := i.reverse

/-- The construction of `PERM` (R86): the reversals of 0..255 in ascending order of `i`, those below 162 kept. -/
def permList : List (Fin 162) :=
  (List.range 256).filterMap fun i =>
    if h : (rev8 (BitVec.ofNat 8 i)).toNat < 162 then some ⟨(rev8 (BitVec.ofNat 8 i)).toNat, h⟩ else none

/-- The permutation ROM `PERM[0..161]` (R28, R86). -/
def permTable : Vector (Fin 162) 162 := ⟨permList.toArray, by decide +kernel⟩

/-- `PERM[i]` (R86). -/
def perm (i : Fin 162) : Fin 162 := permTable.get i

/-- `INV[j]`, the place of `j` in `PERM` (R90). Every `j` has one (R87), so the wrap of `Fin.ofNat` is never used. -/
def inv (j : Fin 162) : Fin 162 := Fin.ofNat 162 (permList.idxOf j)

/-- `interleave(C)`: for `i` in 0..161, place coded bit `i` at position `PERM[i]` (R89). -/
def interleave (c : Vector Bit 162) : Vector Bit 162 :=
  (List.finRange 162).foldl (fun acc i => acc.set (perm i).val (c.get i) (perm i).isLt) (Vector.replicate 162 0)

end Sys2Proof.Machine
end

