-- ==== Sys2Proof/Machine/Composer.lean ====
section
/-! DEFINITION. The symbol composer and the frame function (40_core_functions.md R91, R92; 90_conflicts.md C1). -/

namespace Sys2Proof.Machine

/-- One symbol, `2 × interleavedBit + syncBit` (R91). -/
def composeBit (i s : Bit) : Symbol := 2#2 * i.setWidth 2 + s.setWidth 2

/-- `compose(I, S)`: the symbol of every position (R91). -/
def compose (i : Vector Bit 162) (s : Fin 162 → Bit) : Vector Symbol 162 :=
  Vector.ofFn fun j => composeBit (i.get j) (s j)

/-- `frame(m)` for a given synchronization vector (R92). -/
def frameWith (s : Fin 162 → Bit) (m : Message) : Vector Symbol 162 := compose (interleave (conv m)) s

/-- `frame(m) = compose(interleave(conv(m)), SYNC)` (R92). -/
def frame (m : Message) : Vector Symbol 162 := frameWith Config.sync m

end Sys2Proof.Machine
end

