-- ==== Sys2Proof/Machine/Reads.lean ====
section
/-! DEFINITION. The read commands (41_commands.md R104 to R109). RANGE is checked before NOT_READY (60_exceptions.md
R143), and a read that succeeds changes nothing but the response channel (20_memory.md R50). -/

namespace Sys2Proof.Machine

/-- READSYM reads output symbol `x`, once the whole frame has been pushed (R104). A coded bit that is unwritten is
never given a value, so it answers NOT_READY (R24; assumption 7). -/
def execReadsym (x : Byte) (s : State) : Result :=
  match indexOf x with
  | none => fail .range s
  | some j =>
    if s.nin.toNat < Config.ninfo then fail .notReady s
    else match s.cb.get (inv j) with
      | none => fail .notReady s
      | some b => succeed ((composeBit b (Config.sync j)).setWidth 32) s

/-- READCODE reads coded bit `x` before interleaving, once it is written (R105). -/
def execReadcode (x : Byte) (s : State) : Result :=
  match indexOf x with
  | none => fail .range s
  | some i => match s.readableCode i with
    | none => fail .notReady s
    | some b => succeed (b.setWidth 32) s

/-- READSTAT reads STATUS and clears nothing (R106). -/
def execReadstat (s : State) : Result := succeed (statusWord s) s

/-- READACC reads the accumulator (R107). -/
def execReadacc (s : State) : Result := succeed s.acc s

/-- READPERM reads permutation-table entry `x`, in every state (R108). -/
def execReadperm (x : Byte) (s : State) : Result :=
  match indexOf x with
  | none => fail .range s
  | some i => succeed (BitVec.ofNat 32 (perm i).val) s

/-- READSYNC reads sync-vector entry `x`, in every state (R109). -/
def execReadsync (x : Byte) (s : State) : Result :=
  match indexOf x with
  | none => fail .range s
  | some j => succeed ((Config.sync j).setWidth 32) s

end Sys2Proof.Machine
end

