-- ==== Sys2Proof/Machine/Reserved.lean ====
section
/-! DEFINITION. The words of the reserved opcodes 0x9 to 0xF, whatever their other bits hold: each raises
ILLEGAL_OPCODE (30_encoding.md R65; 60_exceptions.md R140, R141). -/

namespace Sys2Proof.Machine

/-- A word of opcode 0x9 (R65). -/
def execReserved9 (_rest : BitVec 28) (s : State) : Result := fail .illegalOpcode s

/-- A word of opcode 0xA or 0xB (R65). -/
def execReservedAB (_rest : BitVec 29) (s : State) : Result := fail .illegalOpcode s

/-- A word of opcode 0xC to 0xF (R65). -/
def execReservedCF (_rest : BitVec 30) (s : State) : Result := fail .illegalOpcode s

end Sys2Proof.Machine
end

