-- ==== Sys2Proof/Machine/Dispatch.lean ====
section
/-! DEFINITION. The meaning of every row of the opcode table (41_commands.md R100). -/

namespace Sys2Proof.Machine

def exec (i : Instr) (s : State) : Host.Outcome State Fault Refusal :=
  match i with
  | .nop => Sys2Proof.Machine.execNop s
  | .clear => Sys2Proof.Machine.execClear s
  | .push n d => Sys2Proof.Machine.execPush n d s
  | .readsym x => Sys2Proof.Machine.execReadsym x s
  | .readcode x => Sys2Proof.Machine.execReadcode x s
  | .readstat => Sys2Proof.Machine.execReadstat s
  | .readacc => Sys2Proof.Machine.execReadacc s
  | .readperm x => Sys2Proof.Machine.execReadperm x s
  | .readsync x => Sys2Proof.Machine.execReadsync x s
  | .reserved9 rest => Sys2Proof.Machine.execReserved9 rest s
  | .reservedAB rest => Sys2Proof.Machine.execReservedAB rest s
  | .reservedCF rest => Sys2Proof.Machine.execReservedCF rest s

end Sys2Proof.Machine
end

