-- ==== Sys2Proof/Machine/Transaction.lean ====
section
/-! DEFINITION. One transaction of the host with the block: a command word (41_commands.md R100), a reset
(70_reset_and_hazards.md R170), or a reset that is asserted while a command is outstanding (R172). -/

namespace Sys2Proof.Machine

/-- The step function of R100: decode the word and execute its command, or fail with the decoder's verdict. -/
def runWord (w : Word) (s : State) : Result :=
  match decode w with
  | .command i => exec i s
  | .illegal e => fail e s

/-- Reset: an atomic step with no response (R170). -/
def runReset (s : State) : Result := .next s.clear

/-- Reset while the command word `w` is outstanding (R172): the state is that of R170 whether or not `w` took effect
first, and the response `w` would have had may be lost: a FREE VALUE decides it (assumption 6). -/
def runResetDuring (w : Word) (s : State) : Result :=
  match runWord w s with
  | .next t =>
    .next { s.clear with
      responses := if Config.responseSurvives s.draws then t.responses else s.responses
      draws := s.draws + 1 }
  | .fault r => .fault r
  | .refused r => .refused r

/-- What the block does with one event of the host (R178). -/
def runEvent (e : HostEvent) (s : State) : Result :=
  match e with
  | .command w => runWord w s
  | .reset => runReset s
  | .resetDuring w => runResetDuring w s

/-- One step: the host's next event is taken from the channel and run. With no event the block waits and nothing
changes: it never halts by itself (R179; assumption 4). -/
def stepEvent (s : State) : Result :=
  match s.inputs with
  | [] => .next s
  | e :: rest => runEvent e { s with inputs := rest }

/-- The command word given as a number, issued by the host as its next event (assumption 3). -/
def issueWord (nbits w : Nat) (s : State) : State :=
  { s with inputs := .command (BitVec.ofNat 32 (w % 2 ^ nbits)) :: s.inputs }

end Sys2Proof.Machine
end

