-- ==== Sys2Proof/Machine/Step.lean ====
section
/-! DEFINITION. The machine's step (41_commands.md R100; 70_reset_and_hazards.md R170, R172). -/

namespace Sys2Proof.Machine

/-- One atomic step of the block (R5, R100). -/
def step (s : State) : Host.Outcome State Fault Refusal := stepEvent s

/-- `s` with the word `w` issued as the host's next command. -/
def State.withFetchWord (s : State) (nbits w : Nat) : State := issueWord nbits w s

end Sys2Proof.Machine
end

