-- ==== Sys2Proof/Machine/Assembler.lean ====
section
/-! DEFINITION. The assembler syntax (30_encoding.md R73) and the pseudo-instructions (R74). They have no meaning
beyond the commands they expand to (92_eei_decisions.md D16; assumption 14). -/

namespace Sys2Proof.Machine

/-- A message piece as a data field, most significant bit first (R43, R74). -/
def dataOfBits (bs : List Bit) : BitVec 16 := bs.foldl (fun d b => (d <<< 1) ||| b.setWidth 16) 0

/-- `PUSHBIT b` (R74). -/
def pushBitCommand (b : Bit) : Instr := .push 1 (b.setWidth 16)

/-- The `PUSH 16, d_c` of `FRAME m`, for `c` in 0..4 (R74). -/
def framePiece (m : Message) (c : Nat) : Instr := .push 16 (dataOfBits ((m.toList.drop (16 * c)).take 16))

/-- `FRAME m`: CLEAR, five pushes of 16 bits and one push of the last bit (R74). -/
def frameCommands (m : Message) : List Instr :=
  .clear :: ((List.range 5).map (framePiece m) ++ [.push 1 (dataOfBits (m.toList.drop 80))])

/-- `READALL`: READSYM 0 to READSYM 161 (R74). -/
def readAllCommands : List Instr := (List.range 162).map fun j => .readsym (BitVec.ofNat 8 j)

/-- Space and tab separate words. -/
def isBlank (c : Char) : Bool := c == ' ' || c == '\t'

/-- A text without the blanks at its ends. -/
def trimBlanks (cs : List Char) : List Char := ((cs.dropWhile isBlank).reverse.dropWhile isBlank).reverse

/-- The value of a digit. -/
def digitOf (c : Char) : Option Nat :=
  if '0' ≤ c ∧ c ≤ '9' then some (c.toNat - 48)
  else if 'a' ≤ c ∧ c ≤ 'f' then some (c.toNat - 87)
  else if 'A' ≤ c ∧ c ≤ 'F' then some (c.toNat - 55)
  else none

/-- The number that digits of a base write, most significant first. -/
def readDigits (base : Nat) (acc : Nat) : List Char → Option Nat
  | [] => some acc
  | c :: cs => match digitOf c with
    | none => none
    | some v => if v < base then readDigits base (acc * base + v) cs else none

/-- A number: hexadecimal after `0x`, binary after `0b`, else decimal (R73). -/
def readNumber : List Char → Option Nat
  | '0' :: 'x' :: c :: cs => readDigits 16 0 (c :: cs)
  | '0' :: 'b' :: c :: cs => readDigits 2 0 (c :: cs)
  | c :: cs => readDigits 10 0 (c :: cs)
  | [] => none

/-- The pieces of a text between its commas. -/
def splitCommas : List Char → List (List Char)
  | [] => [[]]
  | c :: cs =>
    if c = ',' then [] :: splitCommas cs
    else match splitCommas cs with
      | [] => [[c]]
      | p :: ps => (c :: p) :: ps

/-- The operands of a line: none, or numbers separated by commas (R73). -/
def readOperands (cs : List Char) : Option (List Nat) :=
  if cs = [] then some [] else (splitCommas cs).mapM fun p => readNumber (trimBlanks p)

/-- A form with no operand. -/
def assembleN (i : Instr) (ops : List Nat) : Option (List Instr) :=
  match ops with
  | [] => some [i]
  | _ => none

/-- A form with an index of 0..255: the indices that raise RANGE are accepted (R73). -/
def assembleI (command : Byte → Instr) (ops : List Nat) : Option (List Instr) :=
  match ops with
  | [x] => if x < 256 then some [command (BitVec.ofNat 8 x)] else none
  | _ => none

/-- `PUSH n, d`: `n` is 1..16, and a `d` with bits at or above `n` set is rejected (R73). -/
def assemblePush (ops : List Nat) : Option (List Instr) :=
  match ops with
  | [n, d] =>
    if 1 ≤ n ∧ n ≤ Config.pushMax ∧ d < 2 ^ n then some [.push (BitVec.ofNat 5 n) (BitVec.ofNat 16 d)] else none
  | _ => none

/-- `PUSHBIT b` expands to `PUSH 1, b` (R74). -/
def assemblePushBit (ops : List Nat) : Option (List Instr) :=
  match ops with
  | [b] => assemblePush [1, b]
  | _ => none

/-- `READALL` has no operand (R74). -/
def assembleReadAll (ops : List Nat) : Option (List Instr) :=
  match ops with
  | [] => some readAllCommands
  | _ => none

/-- The commands of a mnemonic with its operands (R73, R74). -/
def assembleNamed (name : List Char) (ops : List Nat) : Option (List Instr) :=
  if name = "NOP".toList then assembleN .nop ops
  else if name = "CLEAR".toList then assembleN .clear ops
  else if name = "PUSH".toList then assemblePush ops
  else if name = "READSYM".toList then assembleI .readsym ops
  else if name = "READCODE".toList then assembleI .readcode ops
  else if name = "READSTAT".toList then assembleN .readstat ops
  else if name = "READACC".toList then assembleN .readacc ops
  else if name = "READPERM".toList then assembleI .readperm ops
  else if name = "READSYNC".toList then assembleI .readsync ops
  else if name = "PUSHBIT".toList then assemblePushBit ops
  else if name = "READALL".toList then assembleReadAll ops
  else none

/-- The text of a line before its comment, without blanks at its ends (R73). -/
def lineBody (cs : List Char) : List Char := trimBlanks (cs.takeWhile (· != ';'))

/-- One line of source text: its commands, none of them for an empty line, or a rejection (R73). -/
def assembleLine (cs : List Char) : Option (List Instr) :=
  if lineBody cs = [] then some []
  else match readOperands (trimBlanks ((lineBody cs).dropWhile fun c => !isBlank c)) with
    | none => none
    | some ops => assembleNamed ((lineBody cs).takeWhile fun c => !isBlank c) ops

end Sys2Proof.Machine
end

