-- ==== Sys2Proof/Safety.lean ====
section
/-! DEFINITION. The vocabulary of the claims: launch, invariants, and which bits of a command sequence a frame
consumes. Nothing here is read by the machine. -/

namespace Sys2Proof.Machine

/-- `s` with one more response delivered: all that a command which changes no other state does (R71). -/
def answered (s : State) (status : Byte) (data : Word) : State :=
  { s with responses := s.responses ++ [⟨status, data⟩] }

/-- `s` after a command that failed with `code` (R141): `LASTERR`, the error response, nothing else. -/
def failed (s : State) (code : Byte) : State :=
  { s with lasterr := code, responses := s.responses ++ [⟨code, 0x00000000#32⟩] }

/-- Two states hold the same architectural state, the tuple of R20. -/
def SameArch (s t : State) : Prop := s.acc = t.acc ∧ s.nin = t.nin ∧ s.cb = t.cb ∧ s.lasterr = t.lasterr

/-- The launch premise `ResetState` (70_reset_and_hazards.md R170, R171): every architectural field at its reset
value, whatever the host does next. -/
def ResetState (s : State) : Prop := SameArch s State.reset

/-- The invariant of the buffer and the counters: `NIN <= 81` (R23), entry `i` of `CB` is written exactly when
`i < 2 × NIN` (R24), and `LASTERR` holds a code that some command produces (R26, R140). -/
def StateInv (s : State) : Prop :=
  s.nin.toNat ≤ 81 ∧ (∀ i : Fin 162, (s.cb.get i).isSome = true ↔ i.val < 2 * s.nin.toNat) ∧ s.lasterr.toNat ≤ 5

/-- The state holds the frame whose consumed bits are `m`, first bit first: `NIN` is their number, `ACC` has shifted
them in (R21, R22), and `CB` holds their coded bits and nothing else (R24, R111). -/
def Holds (m : List Bit) (s : State) : Prop :=
  m.length ≤ 81 ∧ s.nin.toNat = m.length ∧ s.acc = accFrom 0 m ∧ ∀ i : Fin 162, s.cb.get i = (convBits m)[i.val]?

/-- The bits of the frame after one more command word, when `m` are its bits before: CLEAR starts a new frame (R102), a
PUSH that fits adds its bits (R103), and every other word leaves the frame as it is (R110). -/
def frameAfterWord (m : List Bit) (w : Word) : List Bit :=
  match decode w with
  | .command .clear => []
  | .command (.push n d) => if m.length + n.toNat ≤ 81 then m ++ pushBitsOf n d else m
  | _ => m

/-- The same after one event of the host: a reset starts a new frame (R170, R172). -/
def frameAfterEvent (m : List Bit) : HostEvent → List Bit
  | .command w => frameAfterWord m w
  | .reset => []
  | .resetDuring _ => []

/-- `s` with command words issued by the host, in order, before anything else it does. -/
def State.issue (s : State) (ws : List Word) : State := { s with inputs := ws.map .command ++ s.inputs }

/-- Run command words one after another (R51). -/
def runWords (ws : List Word) (s : State) : Result :=
  Sys2Proof.core.run ws.length (s.issue ws)

/-- The left fold of the step function of R100 over command words (R51), on the state alone. -/
def foldWords : List Word → State → Result
  | [], s => .next s
  | w :: ws, s => match runWord w s with
    | .next t => foldWords ws t
    | .fault r => .fault r
    | .refused r => .refused r

/-- Execute commands one after another: the left fold of R51. -/
def execAll : List Instr → State → Result
  | [], s => .next s
  | i :: is, s => match exec i s with
    | .next t => execAll is t
    | .fault r => .fault r
    | .refused r => .refused r

/-- The read commands (41_commands.md section 4). -/
def isRead : Instr → Bool
  | .readsym _ | .readcode _ | .readstat | .readacc | .readperm _ | .readsync _ => true
  | .nop | .clear | .push _ _ | .reserved9 _ | .reservedAB _ | .reservedCF _ => false

/-- The word has a defined opcode and is illegal in its fields (R64, R66, R67): a set reserved bit of its format, or a
PUSH count outside 1..16. -/
abbrev illegalInFields (w : Word) : Prop :=
  ((opcodeField w).toNat ∈ [0x0, 0x1, 0x5, 0x6] ∧ w.extractLsb' 0 28 ≠ 0) ∨
  ((opcodeField w).toNat = 0x2 ∧
    (w.extractLsb' 21 7 ≠ 0 ∨ (w.extractLsb' 16 5).toNat < 1 ∨ 16 < (w.extractLsb' 16 5).toNat)) ∨
  ((opcodeField w).toNat ∈ [0x3, 0x4, 0x7, 0x8] ∧ w.extractLsb' 8 20 ≠ 0)

/-- Every word of an opcode that is illegal in its fields raises ILLEGAL_FIELD, before its command runs and in every
state (R66, R67, R143). -/
def RejectsIllegalFields (op : Nat) : Prop :=
  ∀ (s : State) (w : Word), (opcodeField w).toNat = op → illegalInFields w → runWord w s = .next (failed s 0x02#8)

/-- The status of a command word in a state: the causes of R140, tried in the order of R143. -/
def expectedStatus (s : State) (w : Word) : Byte :=
  if 9 ≤ (opcodeField w).toNat then 0x01#8
  else if illegalInFields w then 0x02#8
  else if (opcodeField w).toNat ∈ [0x3, 0x4, 0x7, 0x8] ∧ 162 ≤ (w.extractLsb' 0 8).toNat then 0x03#8
  else if (opcodeField w).toNat = 0x2 ∧ 81 < s.nin.toNat + (w.extractLsb' 16 5).toNat then 0x04#8
  else if (opcodeField w).toNat = 0x3 ∧ s.nin.toNat < 81 then 0x05#8
  else if (opcodeField w).toNat = 0x4 ∧ 2 * s.nin.toNat ≤ (w.extractLsb' 0 8).toNat then 0x05#8
  else 0x00#8

/-- The pushes `PUSH n, d` of a list of operand pairs. -/
def pushCommands (ps : List (BitVec 5 × BitVec 16)) : List Instr := ps.map fun p => .push p.1 p.2

/-- The texts of a number in source text: decimal, hexadecimal after `0x`, binary after `0b` (R73). -/
def numerals (n : Nat) : List (List Char) :=
  [Nat.toDigits 10 n, "0x".toList ++ Nat.toDigits 16 n, "0b".toList ++ Nat.toDigits 2 n]

/-- The four mnemonics with an index operand, each with its command (R73). -/
def indexMnemonics : List (String × (Byte → Instr)) :=
  [("READSYM", .readsym), ("READCODE", .readcode), ("READPERM", .readperm), ("READSYNC", .readsync)]

/-- The bits such pushes consume, concatenated (R103). -/
def pushedBits (ps : List (BitVec 5 × BitVec 16)) : List Bit := ps.flatMap fun p => pushBitsOf p.1 p.2

/-- The number a list of bits writes, most significant first: the sum of R22. -/
def weightedSum (m : List Bit) : Nat :=
  ∑ k ∈ Finset.range m.length, (m.getD k 0).toNat * 2 ^ (m.length - 1 - k)

end Sys2Proof.Machine
end

