-- ==== Sys2Proof/Certificates/Slice0/Obligations.lean ====
section
/-! DEFINITION. The statements for the provers, in the order of the spec's files. Each docstring says which rule of
spec/ the statement formalises, or which sections it rests on. -/

open Sys2Proof Sys2Proof.Machine

/-! ### Encoding (30_encoding.md) -/

/-- R61 to R65, R72: every well-formed command, with every operand, is what its own word decodes to. -/
def Obligations.DecodeOfEncodeIsTheCommand : Prop :=
  ∀ i : Instr, i.wellFormed = true → decode (encode i) = .command i

/-- 30_encoding.md section 6 (R72): a decoded command is well-formed and its own word is the word that was decoded, so the
decoder drops no bit. R72 itself says that distinct legal words decode to distinct commands EXCEPT PUSH words that
differ only in ignored data bits: that those decode to different terms too rests on the pseudocode's
`Push(n, w[15:0])` alone, and that reserved words keep their other bits is the model's choice (log entry 8), since
R72 gives them one verdict. -/
def Obligations.DecodedCommandHasOnlyItsWord : Prop :=
  ∀ (w : Word) (i : Instr), decode w = .command i → i.wellFormed = true ∧ encode i = w

/-- R64: the opcode map. A decoded word lies in its command's row; a word that a row selects and that is legal in its
fields decodes to a command of that row; no word is selected by two rows; and exactly the words that are illegal in
their fields get the verdict ILLEGAL_FIELD. -/
def Obligations.DecodeFollowsTheOpcodeMap : Prop :=
  ∀ w : Word,
    (∀ i, decode w = .command i → i.row.selects w = true) ∧
    (∀ r ∈ opcodeMap, r.selects w = true → ¬ illegalInFields w → ∃ i, decode w = .command i ∧ i.row = r) ∧
    (∀ r ∈ opcodeMap, ∀ r' ∈ opcodeMap, r.selects w = true → r'.selects w = true → r = r') ∧
    (decode w = .illegal .illegalField ↔ illegalInFields w)

/-- R65: a word with `OP` between 0x9 and 0xF, whatever its other 28 bits hold, raises ILLEGAL_OPCODE and changes
`LASTERR` only. -/
def Obligations.ReservedOpcodeWordsRaiseIllegalOpcode : Prop :=
  ∀ (s : State) (w : Word) (rest : List HostEvent), s.inputs = .command w :: rest →
    9 ≤ (opcodeField w).toNat → step s = .next (failed { s with inputs := rest } 0x01#8)

/-- R66: a word with a defined opcode and a set bit in a reserved field of its format raises ILLEGAL_FIELD, and the
only word that executes as NOP is 0x00000000. -/
def Obligations.ReservedFieldWordsRaiseIllegalField : Prop :=
  (∀ (s : State) (w : Word) (rest : List HostEvent), s.inputs = .command w :: rest →
    ((opcodeField w).toNat ∈ [0x0, 0x1, 0x5, 0x6] ∧ w.extractLsb' 0 28 ≠ 0) ∨
      ((opcodeField w).toNat = 0x2 ∧ w.extractLsb' 21 7 ≠ 0) ∨
      ((opcodeField w).toNat ∈ [0x3, 0x4, 0x7, 0x8] ∧ w.extractLsb' 8 20 ≠ 0) →
    step s = .next (failed { s with inputs := rest } 0x02#8)) ∧
  ∀ w : Word, decode w = .command .nop ↔ w = 0x00000000#32

/-- R67: the bit count of PUSH is `w[20:16]`; a count of 0 or 17..31 raises ILLEGAL_FIELD, and 1..16 is a PUSH of that
count. -/
def Obligations.PushCountIsLegalFromOneToSixteen : Prop :=
  ∀ (s : State) (w : Word), (opcodeField w).toNat = 0x2 →
    ((w.extractLsb' 16 5).toNat = 0 ∨ 17 ≤ (w.extractLsb' 16 5).toNat → runWord w s = .next (failed s 0x02#8)) ∧
    (w.extractLsb' 21 7 = 0 → 1 ≤ (w.extractLsb' 16 5).toNat → (w.extractLsb' 16 5).toNat ≤ 16 →
      decode w = .command (.push (w.extractLsb' 16 5) (w.extractLsb' 0 16)))

/-- R68: two PUSH words that differ only in the data bits at or above the count behave identically, whatever the
state. -/
def Obligations.PushIgnoresDataAboveItsCount : Prop :=
  ∀ (s : State) (w w' : Word), (opcodeField w).toNat = 0x2 →
    (∀ k, k < (w.extractLsb' 16 5).toNat ∨ 16 ≤ k → w.getLsbD k = w'.getLsbD k) → runWord w s = runWord w' s

/-- R69: a Format I word with an index of 162 to 255 raises RANGE when it is executed, in every state; an index of 0
to 161 never does. -/
def Obligations.IndexAbove161RaisesRange : Prop :=
  ∀ (s : State) (w : Word), (opcodeField w).toNat ∈ [0x3, 0x4, 0x7, 0x8] → w.extractLsb' 8 20 = 0 →
    (162 ≤ (w.extractLsb' 0 8).toNat → runWord w s = .next (failed s 0x03#8)) ∧
    ((w.extractLsb' 0 8).toNat < 162 → runWord w s ≠ .next (failed s 0x03#8))

/-- A few words of R61 to R65, written out from the formats, and the commands they stand for. -/
def Obligations.DecodeOfWordsWrittenFromTheFormats : Prop :=
  decode (0x0#4 ++ 0#28 : Word) = .command .nop ∧
  decode (0x1#4 ++ 0#28 : Word) = .command .clear ∧
  decode (0x2#4 ++ 0#7 ++ 16#5 ++ 0xF70C#16 : Word) = .command (.push 16 0xF70C) ∧
  decode (0x3#4 ++ 0#20 ++ 161#8 : Word) = .command (.readsym 161) ∧
  decode (0x7#4 ++ 0#20 ++ 1#8 : Word) = .command (.readperm 1) ∧
  decode (0xB#4 ++ 5#28 : Word) = .command (.reservedAB 0x10000005#29) ∧
  decode (0x2#4 ++ 0#7 ++ 17#5 ++ 0#16 : Word) = .illegal .illegalField

/-- 30_encoding.md section 7 (R73, R74): a line the assembler accepts gives well-formed commands only, and no PUSH among
them has a data bit set at or above its count; text after `;` is a comment; `NOP`, `CLEAR`, `READSTAT` and `READACC`
assemble to their commands; `PUSH n, d`, with numbers in decimal, hexadecimal or binary, assembles to that PUSH
exactly when `n` is 1..16 and `d` has no bit at or above `n`; and the four index forms assemble to their read command
exactly for an index of 0..255, 162..255 included. -/
def Obligations.AssembledCommandsAreWellFormed : Prop :=
  (∀ (line : List Char) (is : List Instr), assembleLine line = some is →
    ∀ i ∈ is, i.wellFormed = true ∧ ∀ n d, i = .push n d → d.toNat < 2 ^ n.toNat) ∧
  (∀ line comment : List Char, assembleLine (line ++ ';' :: comment) = assembleLine line) ∧
  (assembleLine "NOP".toList = some [.nop] ∧ assembleLine "CLEAR".toList = some [.clear] ∧
    assembleLine "READSTAT".toList = some [.readstat] ∧ assembleLine "READACC".toList = some [.readacc]) ∧
  (∀ n d : Nat, ∀ nText ∈ numerals n, ∀ dText ∈ numerals d,
    assembleLine ("PUSH ".toList ++ nText ++ ", ".toList ++ dText) =
      if 1 ≤ n ∧ n ≤ 16 ∧ d < 2 ^ n then some [.push (BitVec.ofNat 5 n) (BitVec.ofNat 16 d)] else none) ∧
  ∀ x : Nat, ∀ xText ∈ numerals x, ∀ form ∈ indexMnemonics,
    assembleLine (form.1.toList ++ ' ' :: xText) =
      if x ≤ 255 then some [form.2 (BitVec.ofNat 8 x)] else none

/-! ### Core functions (40_core_functions.md, 20_memory.md) -/

/-- R80: `parity(v)` is the number of set bits modulo 2, and equals `v[31] ^ … ^ v[0]`. -/
def Obligations.ParityIsTheXorOfAllBits : Prop :=
  ∀ v : Word,
    (parity v).toNat = (Finset.univ.filter fun k : Fin 32 => v.getLsbD k.val = true).card % 2 ∧
    parity v = (List.range 32).foldl (fun b k => b ^^^ v.extractLsb' k 1) 0

/-- R82: the encoder step shifts left by one modulo 2^32 and takes the bit in, and both parities read the updated
accumulator, against the polynomials 0xF2D05351 and 0xE4613C47. -/
def Obligations.EncoderStepShiftsAndTakesParities : Prop :=
  ∀ (acc : Word) (b : Bit),
    (encstep acc b).1.toNat = (2 * acc.toNat + b.toNat) % 2 ^ 32 ∧
    (encstep acc b).2.1 = parity ((encstep acc b).1 &&& 0xF2D05351#32) ∧
    (encstep acc b).2.2 = parity ((encstep acc b).1 &&& 0xE4613C47#32)

/-- R44: information bit `k` produces coded bit `2k` from `POLY0` and coded bit `2k+1` from `POLY1`, both from the
accumulator that has taken in the bits up to `k`. -/
def Obligations.CodedBitsComeInPairsPerInputBit : Prop :=
  ∀ (m : Message) (k : Nat) (hk : k < 81),
    (conv m)[2 * k] = parity (accFrom 0 (m.toList.take (k + 1)) &&& 0xF2D05351#32) ∧
    (conv m)[2 * k + 1] = parity (accFrom 0 (m.toList.take (k + 1)) &&& 0xE4613C47#32)

/-- 40_core_functions.md section 2 (R83): the encoder is linear over GF(2). -/
def Obligations.EncoderIsLinear : Prop :=
  ∀ m m' : Message,
    conv (Vector.zipWith (· ^^^ ·) m m') = Vector.zipWith (· ^^^ ·) (conv m) (conv m')

/-- 40_core_functions.md section 2 (R83): coded bits `2k` and `2k+1` depend only on the message bits
`m[max(0,k-31)..k]`. -/
def Obligations.CodedBitsDependOnThe32LatestInputs : Prop :=
  ∀ (m m' : Message) (k : Nat) (hk : k < 81),
    (∀ q (hq : q ≤ k), k - 31 ≤ q → m[q] = m'[q]) →
    (conv m)[2 * k] = (conv m')[2 * k] ∧ (conv m)[2 * k + 1] = (conv m')[2 * k + 1]

/-- R85: bit `k` of `rev8(i)` is bit `7-k` of `i`, and `rev8` is its own inverse. -/
def Obligations.ByteReversalMirrorsBits : Prop :=
  ∀ i : Byte, (∀ k, k < 8 → (rev8 i).getLsbD k = i.getLsbD (7 - k)) ∧ rev8 (rev8 i) = i

/-- R86, R87: `PERM` is built from `rev8`: its entries in order are the reversals of 0..255 in ascending order, those
below 162 kept, so later entries have larger reversals. It is a bijection of 0..161, even on 0..80 and odd on 81..161,
with the four values R87 lists. -/
def Obligations.PermIsABijectionWithEvenHalfFirst : Prop :=
  (List.finRange 162).map (fun i => (perm i).val) =
    ((List.range 256).map fun i => (rev8 (BitVec.ofNat 8 i)).toNat).filter (fun r => decide (r < 162)) ∧
  (∀ i j : Fin 162, i < j →
    (rev8 (BitVec.ofNat 8 (perm i).val)).toNat < (rev8 (BitVec.ofNat 8 (perm j).val)).toNat) ∧
  Function.Bijective perm ∧
  (∀ k : Fin 162, (k.val ≤ 80 → (perm k).val % 2 = 0) ∧ (81 ≤ k.val → (perm k).val % 2 = 1)) ∧
  perm 0 = 0 ∧ perm 80 = 126 ∧ perm 81 = 1 ∧ perm 161 = 127

/-- R89: the interleaver places coded bit `i` at position `PERM[i]`, for every sequence of coded bits. -/
def Obligations.InterleaverPlacesEveryCodedBit : Prop :=
  ∀ (c : Vector Bit 162) (i : Fin 162), (interleave c).get (perm i) = c.get i

/-- R90: `I[j] = C[INV[j]]`, where `INV` is the inverse of `PERM`. -/
def Obligations.InterleaverReadsThroughTheInverse : Prop :=
  (∀ i, inv (perm i) = i) ∧
  ∀ (c : Vector Bit 162) (j : Fin 162), (interleave c).get j = c.get (inv j)

/-- R91: symbol `j` is `2 × I[j] + S[j]`: bit 1 is the data bit, bit 0 the sync bit, and the doubling agrees with the
OR and the XOR of the two. -/
def Obligations.SymbolIsDataBitAboveSyncBit : Prop :=
  ∀ (i : Vector Bit 162) (sync : Fin 162 → Bit) (j : Fin 162),
    ((compose i sync).get j).toNat = 2 * (i.get j).toNat + (sync j).toNat ∧
    ((compose i sync).get j).extractLsb' 1 1 = i.get j ∧
    ((compose i sync).get j).extractLsb' 0 1 = sync j ∧
    (compose i sync).get j = ((i.get j).setWidth 2 <<< 1) ||| (sync j).setWidth 2 ∧
    (compose i sync).get j = ((i.get j).setWidth 2 <<< 1) ^^^ (sync j).setWidth 2

/-- R92: `frame(m)` is the composition of the three functions; symbol `j` is `2 × C[INV[j]] + SYNC[j]`; the frame of
the all-zero message is `SYNC`. It holds for every `SYNC`. -/
def Obligations.FrameComposesTheThreeStages : Prop :=
  (∀ m : Message, frame m = compose (interleave (conv m)) Config.sync) ∧
  (∀ (m : Message) (j : Fin 162),
    ((frame m).get j).toNat = 2 * ((conv m).get (inv j)).toNat + (Config.sync j).toNat) ∧
  ∀ j : Fin 162, ((frame (Vector.replicate 81 0)).get j).toNat = (Config.sync j).toNat

/-! ### The step (41_commands.md R100, 20_memory.md, 70_reset_and_hazards.md) -/

/-- 41_commands.md section 1 (R100): with a command word first in the host's events, a step takes that event away and
executes the decoded command, or fails with the decoder's verdict. Nothing else happens around it. -/
def Obligations.StepRunsTheDecodedCommand : Prop :=
  ∀ (s : State) (w : Word) (rest : List HostEvent), s.inputs = .command w :: rest →
    (∀ i, decode w = .command i → i.wellFormed = true ∧ step s = exec i { s with inputs := rest }) ∧
    (∀ e, decode w = .illegal e → step s = .next (failed { s with inputs := rest } e.code))

/-- The model's choice (assumption 4), resting on 70_reset_and_hazards.md R179: with no event of the host the block
waits and nothing changes. -/
def Obligations.StepWithoutEventWaits : Prop :=
  ∀ s : State, s.inputs = [] → step s = .next s

/-- 41_commands.md section 1 (R100), 60_exceptions.md (R141, R147), 30_encoding.md (R71): a step on any command word,
in any state, answers a next state with exactly one more response; it never faults, refuses or stalls. -/
def Obligations.EveryCommandWordGetsOneResponse : Prop :=
  ∀ (s : State) (w : Word) (rest : List HostEvent), s.inputs = .command w :: rest →
    ∃ (t : State) (r : Response), step s = .next t ∧ t.responses = s.responses ++ [r] ∧ t.inputs = rest

/-- R51: the state after a sequence of command words is the left fold of the step function over it, and the responses
are delivered in order, one per command. -/
def Obligations.RunningWordsIsTheLeftFold : Prop :=
  ∀ (ws : List Word) (s : State), ∃ t : State,
    runWords ws s = .next t ∧ foldWords ws s = .next t ∧ t.inputs = s.inputs ∧
    ∃ rs : List Response, rs.length = ws.length ∧ t.responses = s.responses ++ rs

/-- 20_memory.md section 4 (R51), 60_exceptions.md (R150): what a command word does to the architectural state, and
what it answers, depend on that state alone, not on earlier responses or on what the host does next. -/
def Obligations.CommandDependsOnArchitecturalStateOnly : Prop :=
  ∀ (s s' t : State) (w : Word) (rest rest' : List HostEvent), SameArch s s' →
    s.inputs = .command w :: rest → s'.inputs = .command w :: rest' → step s = .next t →
    ∃ (t' : State) (r : Response), step s' = .next t' ∧ SameArch t t' ∧
      t.responses = s.responses ++ [r] ∧ t'.responses = s'.responses ++ [r]

/-! ### Commands (41_commands.md) -/

/-- R101: NOP answers `(0x00, 0)` and changes no state, and a word with its opcode and another bit set raises
ILLEGAL_FIELD. -/
def Obligations.NopOnlyAnswers : Prop :=
  (∀ s : State, exec .nop s = .next (answered s 0x00#8 0x00000000#32)) ∧
  encode .nop = 0x00000000#32 ∧
  ∀ (s : State) (w : Word), (opcodeField w).toNat = 0x0 → w ≠ 0x00000000#32 →
    runWord w s = .next (failed s 0x02#8)

/-- R102: CLEAR sets `ACC` and `NIN` to 0, marks every entry of `CB` unwritten, sets `LASTERR` to 0 and answers
`(0x00, 0)`, in every state; the state is then that of reset; a word with its opcode and another bit set raises
ILLEGAL_FIELD and clears nothing. -/
def Obligations.ClearBeginsANewFrame : Prop :=
  (∀ s : State, exec .clear s = .next
    { acc := 0x00000000#32, nin := 0, cb := Vector.replicate 162 none, lasterr := 0x00#8, inputs := s.inputs,
      responses := s.responses ++ [⟨0x00#8, 0x00000000#32⟩], draws := s.draws }) ∧
  (∀ s t : State, exec .clear s = .next t → SameArch t State.reset) ∧
  encode .clear = 0x10000000#32 ∧
  ∀ (s : State) (w : Word), (opcodeField w).toNat = 0x1 → w ≠ 0x10000000#32 →
    runWord w s = .next (failed s 0x02#8)

/-- R103: a PUSH of `n` bits that fits shifts them into `ACC`, writes their `2n` coded bits at `2 × NIN` and on,
advances `NIN` by `n`, answers the new count and changes nothing else; one that does not fit raises OVERFLOW and
consumes none of its bits; data bits at or above `n` are ignored, and a word illegal in its fields raises
ILLEGAL_FIELD. -/
def Obligations.PushConsumesAllItsBitsOrNone : Prop :=
  RejectsIllegalFields 0x2 ∧
  ∀ (s : State) (n : BitVec 5) (d : BitVec 16), 1 ≤ n.toNat → n.toNat ≤ 16 →
    (s.nin.toNat + n.toNat ≤ 81 → ∃ t : State, exec (.push n d) s = .next t ∧
      t.acc = accFrom s.acc (pushBitsOf n d) ∧
      t.nin.toNat = s.nin.toNat + n.toNat ∧
      (∀ i : Fin 162, t.cb.get i =
        if 2 * s.nin.toNat ≤ i.val ∧ i.val < 2 * (s.nin.toNat + n.toNat)
        then (convFrom s.acc (pushBitsOf n d))[i.val - 2 * s.nin.toNat]? else s.cb.get i) ∧
      t.lasterr = s.lasterr ∧ t.inputs = s.inputs ∧ t.draws = s.draws ∧
      t.responses = s.responses ++ [⟨0x00#8, BitVec.ofNat 32 (s.nin.toNat + n.toNat)⟩]) ∧
    (81 < s.nin.toNat + n.toNat → exec (.push n d) s = .next (failed s 0x04#8)) ∧
    ∀ d' : BitVec 16, (∀ k, k < n.toNat → d.getLsbD k = d'.getLsbD k) → exec (.push n d') s = exec (.push n d) s

/-- R43: a PUSH consumes `d[n-1]` first and `d[0]` last, so a data field built most significant bit first delivers the
message bits in message order. -/
def Obligations.PushTakesMostSignificantBitFirst : Prop :=
  (∀ (n : BitVec 5) (d : BitVec 16), (pushBitsOf n d).length = n.toNat ∧
    ∀ t, t < n.toNat → (pushBitsOf n d)[t]? = some (d.extractLsb' (n.toNat - 1 - t) 1)) ∧
  ∀ (n : BitVec 5) (bs : List Bit), n.toNat ≤ 16 → bs.length = n.toNat → pushBitsOf n (dataOfBits bs) = bs

/-- 41_commands.md section 3 (R103): pushes that fit all succeed, and the state they leave depends only on the
concatenation of their bits, not on the split into commands. -/
def Obligations.FrameMayBePushedInAnySplit : Prop :=
  ∀ (s : State) (ps qs : List (BitVec 5 × BitVec 16)),
    (∀ p ∈ ps, 1 ≤ p.1.toNat ∧ p.1.toNat ≤ 16) → (∀ q ∈ qs, 1 ≤ q.1.toNat ∧ q.1.toNat ≤ 16) →
    pushedBits ps = pushedBits qs → s.nin.toNat + (pushedBits ps).length ≤ 81 →
    ∃ t u : State, execAll (pushCommands ps) s = .next t ∧ execAll (pushCommands qs) s = .next u ∧ SameArch t u ∧
      t.nin.toNat = s.nin.toNat + (pushedBits ps).length ∧ t.acc = accFrom s.acc (pushedBits ps)

/-- R104: READSYM raises RANGE for an index from 162 and otherwise NOT_READY while `NIN < 81`; once the frame is
complete it answers `2 × CB[INV[j]] + SYNC[j]` and changes nothing. A word illegal in its fields raises ILLEGAL_FIELD.
-/
def Obligations.ReadsymAnswersOnceTheFrameIsDone : Prop :=
  RejectsIllegalFields 0x3 ∧
  ∀ (s : State) (x : Byte),
    (162 ≤ x.toNat → exec (.readsym x) s = .next (failed s 0x03#8)) ∧
    (x.toNat < 162 → s.nin.toNat < 81 → exec (.readsym x) s = .next (failed s 0x05#8)) ∧
    ∀ h : x.toNat < 162, StateInv s → s.nin.toNat = 81 →
      ∃ b : Bit, s.cb.get (inv ⟨x.toNat, h⟩) = some b ∧
        exec (.readsym x) s = .next (answered s 0x00#8
          (BitVec.ofNat 32 (2 * b.toNat + (Config.sync ⟨x.toNat, h⟩).toNat)))

/-- R105: READCODE raises RANGE for an index from 162 and otherwise NOT_READY from `2 × NIN` on; below that it answers
the coded bit, also while a frame is being pushed, and changes nothing. A word illegal in its fields raises
ILLEGAL_FIELD. -/
def Obligations.ReadcodeAnswersWrittenEntries : Prop :=
  RejectsIllegalFields 0x4 ∧
  ∀ (s : State) (x : Byte),
    (162 ≤ x.toNat → exec (.readcode x) s = .next (failed s 0x03#8)) ∧
    (x.toNat < 162 → 2 * s.nin.toNat ≤ x.toNat → exec (.readcode x) s = .next (failed s 0x05#8)) ∧
    ∀ h : x.toNat < 162, StateInv s → x.toNat < 2 * s.nin.toNat →
      ∃ b : Bit, s.cb.get ⟨x.toNat, h⟩ = some b ∧
        exec (.readcode x) s = .next (answered s 0x00#8 (BitVec.ofNat 32 b.toNat))

/-- The model's choice (assumption 7), resting on 10_state.md R24: also in a state that no run reaches, a read of an
unwritten entry answers NOT_READY, never a value. -/
def Obligations.UnwrittenEntryIsNeverAnswered : Prop :=
  ∀ (s : State) (x : Byte) (h : x.toNat < 162),
    (s.cb.get ⟨x.toNat, h⟩ = none → exec (.readcode x) s = .next (failed s 0x05#8)) ∧
    (s.cb.get (inv ⟨x.toNat, h⟩) = none → exec (.readsym x) s = .next (failed s 0x05#8))

/-- R106: READSTAT answers a word with `NIN` in [6:0], `DONE` in [7], `LASTERR` in [15:8] and 0 in [31:16], and
changes nothing; [6:0] never exceeds 81 where the invariant holds, and [7] is 1 exactly when [6:0] is 81. A word
illegal in its fields raises ILLEGAL_FIELD. -/
def Obligations.ReadstatShowsEveryField : Prop :=
  RejectsIllegalFields 0x5 ∧
  ∀ s : State, ∃ data : Word, exec .readstat s = .next (answered s 0x00#8 data) ∧
    data.extractLsb' 0 7 = s.nin ∧ data.extractLsb' 8 8 = s.lasterr ∧ data.extractLsb' 16 16 = 0 ∧
    (data.extractLsb' 7 1 = 1 ↔ (data.extractLsb' 0 7).toNat = 81) ∧
    (StateInv s → (data.extractLsb' 0 7).toNat ≤ 81)

/-- R107: READACC answers `ACC` and changes nothing; after reset that is 0, after 32 or more ones in a row 0xFFFFFFFF,
and after a message whose last 31 bits are zero `m[49] << 31`. A word illegal in its fields raises ILLEGAL_FIELD. -/
def Obligations.ReadaccAnswersTheAccumulator : Prop :=
  RejectsIllegalFields 0x6 ∧
  (∀ s : State, exec .readacc s = .next (answered s 0x00#8 s.acc)) ∧
  State.reset.acc = 0x00000000#32 ∧
  (∀ (acc : Word) (k : Nat), 32 ≤ k → accFrom acc (List.replicate k 1) = 0xFFFFFFFF#32) ∧
  ∀ m : Message, (∀ q (_ : q < 81), 50 ≤ q → m[q] = 0) → accFrom 0 m.toList = m[49].setWidth 32 <<< 31

/-- R108: READPERM answers `PERM[x]`, a value of 0..161, in every state and independently of it, and raises RANGE for
an index from 162. A word illegal in its fields raises ILLEGAL_FIELD. -/
def Obligations.ReadpermAnswersInEveryState : Prop :=
  RejectsIllegalFields 0x7 ∧
  ∀ (s : State) (x : Byte),
    (162 ≤ x.toNat → exec (.readperm x) s = .next (failed s 0x03#8)) ∧
    ∀ h : x.toNat < 162, ∃ p : Nat, p < 162 ∧ p = (perm ⟨x.toNat, h⟩).val ∧
      exec (.readperm x) s = .next (answered s 0x00#8 (BitVec.ofNat 32 p))

/-- R109: READSYNC answers `SYNC[x]`, a bit, in every state, and raises RANGE for an index from 162. It holds for
every `SYNC`. A word illegal in its fields raises ILLEGAL_FIELD. -/
def Obligations.ReadsyncAnswersInEveryState : Prop :=
  RejectsIllegalFields 0x8 ∧
  ∀ (s : State) (x : Byte),
    (162 ≤ x.toNat → exec (.readsync x) s = .next (failed s 0x03#8)) ∧
    ∀ h : x.toNat < 162,
      exec (.readsync x) s = .next (answered s 0x00#8 (BitVec.ofNat 32 (Config.sync ⟨x.toNat, h⟩).toNat))

/-- 30_encoding.md section 3 (R65), 60_exceptions.md section 1 (R141): the command of a reserved opcode, whatever its
other bits, writes ILLEGAL_OPCODE to `LASTERR`, answers `(0x01, 0)` and changes nothing else. -/
def Obligations.ReservedCommandsRaiseIllegalOpcode : Prop :=
  (∀ (s : State) (rest : BitVec 28), exec (.reserved9 rest) s = .next (failed s 0x01#8)) ∧
  (∀ (s : State) (rest : BitVec 29), exec (.reservedAB rest) s = .next (failed s 0x01#8)) ∧
  ∀ (s : State) (rest : BitVec 30), exec (.reservedCF rest) s = .next (failed s 0x01#8)

/-- R50: a read that succeeds changes no architectural state, a read that fails changes `LASTERR` only, and the same
read again gives the same response. -/
def Obligations.ReadsAreIdempotent : Prop :=
  ∀ (i : Instr) (s t : State), isRead i = true → exec i s = .next t →
    ∃ (r : Response) (u : State), t.responses = s.responses ++ [r] ∧
      t.acc = s.acc ∧ t.nin = s.nin ∧ t.cb = s.cb ∧ (r.status = 0x00#8 → t.lasterr = s.lasterr) ∧
      exec i t = .next u ∧ u.responses = t.responses ++ [r]

/-- 20_memory.md section 3 (R48): in the data of a successful response every bit above the element's width is 0. -/
def Obligations.ReadDataIsZeroExtended : Prop :=
  ∀ (i : Instr) (s t : State) (r : Response), StateInv s → exec i s = .next t → t.responses = s.responses ++ [r] →
    (∀ x, i = .readcode x → r.data.toNat < 2 ^ 1) ∧ (∀ x, i = .readsym x → r.data.toNat < 2 ^ 2) ∧
    (∀ x, i = .readperm x → r.data.toNat < 2 ^ 8) ∧ (∀ x, i = .readsync x → r.data.toNat < 2 ^ 1) ∧
    (i = .readstat → r.data.toNat < 2 ^ 16) ∧ (∀ n d, i = .push n d → r.data.toNat < 2 ^ 7)

/-- 70_reset_and_hazards.md section 3 (R174): a read issued immediately after the PUSH that made its data available
answers the new data. -/
def Obligations.ReadRightAfterPushSeesTheNewBits : Prop :=
  ∀ (s : State) (n : BitVec 5) (d : BitVec 16) (x : Byte) (h : x.toNat < 162), StateInv s → 1 ≤ n.toNat → n.toNat ≤ 16 →
    s.nin.toNat + n.toNat ≤ 81 → 2 * s.nin.toNat ≤ x.toNat → x.toNat < 2 * (s.nin.toNat + n.toNat) →
    ∃ (t : State) (b : Bit), exec (.push n d) s = .next t ∧
      (convFrom s.acc (pushBitsOf n d))[x.toNat - 2 * s.nin.toNat]? = some b ∧
      exec (.readcode x) t = .next (answered t 0x00#8 (BitVec.ofNat 32 b.toNat)) ∧
      (s.nin.toNat + n.toNat = 81 → ∀ j : Fin 162, inv j = ⟨x.toNat, h⟩ →
        exec (.readsym (BitVec.ofNat 8 j.val)) t =
          .next (answered t 0x00#8 (BitVec.ofNat 32 (2 * b.toNat + (Config.sync j).toNat))))

/-! ### Errors (60_exceptions.md, 10_state.md R26) -/

/-- R140, R143: every command word completes with the first status that applies, in the order ILLEGAL_OPCODE,
ILLEGAL_FIELD, RANGE, OVERFLOW or NOT_READY; no other code is ever produced. -/
def Obligations.StatusIsTheFirstCauseThatApplies : Prop :=
  ∀ (s : State) (w : Word) (rest : List HostEvent), StateInv s → s.inputs = .command w :: rest →
    ∃ (t : State) (data : Word), step s = .next t ∧ t.responses = s.responses ++ [⟨expectedStatus s w, data⟩] ∧
      (expectedStatus s w ≠ 0x00#8 → t.lasterr = expectedStatus s w ∧ data = 0x00000000#32) ∧
      (expectedStatus s w).toNat ≤ 5

/-- R141, R142: a command that fails leaves `ACC`, `NIN` and every `CB` entry as they were, writes its code to
`LASTERR` and answers data 0; the block then accepts the next command. -/
def Obligations.FailingCommandChangesOnlyLasterr : Prop :=
  ∀ (s t : State) (w : Word) (rest : List HostEvent) (r : Response), s.inputs = .command w :: rest →
    step s = .next t → t.responses = s.responses ++ [r] → r.status ≠ 0x00#8 →
    t = failed { s with inputs := rest } r.status ∧ r.data = 0x00000000#32 ∧ ∃ u, step t = .next u

/-- R26: `LASTERR` takes the code of a command that fails, 0x00 on CLEAR and reset, and keeps its value on every other
command that succeeds. -/
def Obligations.LasterrHoldsTheLatestFailure : Prop :=
  (∀ (s t : State) (w : Word) (rest : List HostEvent), s.inputs = .command w :: rest → step s = .next t →
    ∃ r : Response, t.responses = s.responses ++ [r] ∧
      t.lasterr = if r.status ≠ 0x00#8 then r.status else if w = 0x10000000#32 then 0x00#8 else s.lasterr) ∧
  ∀ (s t : State) (rest : List HostEvent), s.inputs = .reset :: rest → step s = .next t → t.lasterr = 0x00#8

/-! ### Invariants and the frame (10_state.md, 41_commands.md section 5) -/

/-- 10_state.md R23, R24, R26 and 70_reset_and_hazards.md R170: every state that meets the launch premise meets the
invariant, whatever the host does next. -/
def Obligations.ResetMeetsTheInvariant : Prop :=
  ∀ s : State, ResetState s → StateInv s

/-- 10_state.md R23, R24, R26: every step, on any event of the host, keeps `NIN <= 81`, the written entries of `CB`
being exactly those below `2 × NIN`, and a legal `LASTERR`. -/
def Obligations.EveryStepKeepsTheInvariant : Prop :=
  ∀ s t : State, StateInv s → step s = .next t → StateInv t

/-- R25: when `DONE` holds, every entry of `CB` is written, and `DONE` is the condition `NIN = 81`. -/
def Obligations.DoneMeansEveryEntryIsWritten : Prop :=
  ∀ s : State, (s.done = true ↔ s.nin.toNat = 81) ∧
    (StateInv s → s.done = true → ∀ i : Fin 162, ∃ b, s.cb.get i = some b)

/-- 10_state.md section 6 (R31): `NIN` does not wrap, and no command word other than CLEAR lowers it. -/
def Obligations.OnlyClearAndResetLowerTheCounter : Prop :=
  ∀ (s t : State) (e : HostEvent) (rest : List HostEvent), StateInv s → s.inputs = e :: rest → step s = .next t →
    t.nin.toNat < s.nin.toNat →
    (e = .command 0x10000000#32 ∨ e = .reset ∨ ∃ w, e = .resetDuring w) ∧ t.nin = 0

/-- 10_state.md R34 and 70_reset_and_hazards.md R170: after reset the block holds the empty frame. -/
def Obligations.ResetHoldsTheEmptyFrame : Prop :=
  ∀ s : State, ResetState s → Holds [] s

/-- 10_state.md R21, R23, R24, 41_commands.md R102, R103, R111: whatever bits the frame holds, every step on every
event leaves the frame that the event makes of them. -/
def Obligations.EveryStepKeepsTheFrame : Prop :=
  ∀ (m : List Bit) (s t : State) (e : HostEvent) (rest : List HostEvent), Holds m s → s.inputs = e :: rest →
    step s = .next t → Holds (frameAfterEvent m e) t

/-- R22: where the consumed bits are `m`, `ACC` is their weighted sum modulo 2^32: the last 32 of them with the latest
at bit 0, and zeros above them when there are fewer. -/
def Obligations.AccumulatorIsTheWeightedSum : Prop :=
  ∀ (m : List Bit) (s : State), Holds m s →
    s.acc.toNat = weightedSum m % 2 ^ 32 ∧
    (∀ k, k < 32 → k < m.length → s.acc.getLsbD k = (m.getD (m.length - 1 - k) 0).getLsbD 0) ∧
    ∀ k, k < 32 → m.length ≤ k → s.acc.getLsbD k = false

/-- R111: after CLEAR and command words that consumed `m[0..K-1]`, the first `2K` coded bits are those of every
message that begins with these bits. -/
def Obligations.CodedBitsDoNotDependOnLaterBits : Prop :=
  ∀ (s : State) (ws : List Word), (∀ w ∈ ws, w ≠ 0x10000000#32) →
    ∃ t : State, runWords (0x10000000#32 :: ws) s = .next t ∧
      ∀ m : Message, ws.foldl frameAfterWord [] <+: m.toList →
        ∀ i : Fin 162, i.val < 2 * (ws.foldl frameAfterWord []).length → t.cb.get i = some ((conv m).get i)

/-- R110: from any state, after CLEAR and any command words but CLEAR whose successful pushes consumed `m[0..80]`,
READSYM answers `frame(m)[j]` and READCODE answers `conv(m)[i]` for every index; failed commands and reads in between
do not change this. It holds for every `SYNC`. -/
def Obligations.FrameIsCorrectFromAnyState : Prop :=
  ∀ (s : State) (ws : List Word) (m : Message), (∀ w ∈ ws, w ≠ 0x10000000#32) →
    ws.foldl frameAfterWord [] = m.toList →
    ∃ t : State, runWords (0x10000000#32 :: ws) s = .next t ∧
      (∀ j : Fin 162, exec (.readsym (BitVec.ofNat 8 j.val)) t =
        .next (answered t 0x00#8 (((frame m).get j).setWidth 32))) ∧
      ∀ i : Fin 162, exec (.readcode (BitVec.ofNat 8 i.val)) t =
        .next (answered t 0x00#8 (((conv m).get i).setWidth 32))

/-- 30_encoding.md section 7 (R74): the seven words of `FRAME m`, run from any state, leave `DONE`, the last 32 bits
of `m` in `ACC` and the coded message of `m` in `CB`. -/
def Obligations.FramePseudoInstructionEncodesTheMessage : Prop :=
  ∀ (s : State) (m : Message), ∃ t : State, runWords ((frameCommands m).map encode) s = .next t ∧
    t.done = true ∧ (∀ k (_ : k < 32), t.acc.extractLsb' k 1 = m[80 - k]) ∧
    ∀ i : Fin 162, t.cb.get i = some ((conv m).get i)

/-- R179: a complete frame answers `frame(m)[j]` to every READSYM, and every command word but CLEAR leaves it
readable: the block goes on and still holds it. -/
def Obligations.CompleteFrameStaysReadable : Prop :=
  ∀ (m : Message) (s : State), Holds m.toList s →
    (∀ j : Fin 162, exec (.readsym (BitVec.ofNat 8 j.val)) s =
      .next (answered s 0x00#8 (((frame m).get j).setWidth 32))) ∧
    ∀ (w : Word) (rest : List HostEvent), s.inputs = .command w :: rest → w ≠ 0x10000000#32 →
      ∃ t : State, step s = .next t ∧ Holds m.toList t

/-! ### Reset (70_reset_and_hazards.md) -/

/-- R170: reset, from any state, leaves every field at its reset value, produces no response, shows STATUS 0 and
leaves the same state as CLEAR; the machine starts in that state. -/
def Obligations.ResetLeavesTheResetState : Prop :=
  (∀ (s : State) (rest : List HostEvent), s.inputs = .reset :: rest → ∃ t : State, step s = .next t ∧
    t.acc = 0x00000000#32 ∧ t.nin = 0 ∧ (∀ i : Fin 162, t.cb.get i = none) ∧ t.lasterr = 0x00#8 ∧
    t.responses = s.responses ∧ t.inputs = rest ∧ t.done = false ∧ statusWord t = 0x00000000#32 ∧
    ∃ u : State, exec .clear s = .next u ∧ SameArch t u) ∧
  State.reset.acc = 0x00000000#32 ∧ State.reset.nin = 0 ∧ (∀ i : Fin 162, State.reset.cb.get i = none) ∧
  State.reset.lasterr = 0x00#8

/-- 70_reset_and_hazards.md section 1 (R172), with the model's event and free value (assumption 6): when reset is
asserted while a command is outstanding, the state is the reset state, the same as if the command had taken effect
first, and at most one response is delivered. -/
def Obligations.ResetDuringACommandLeavesTheResetState : Prop :=
  ∀ (s : State) (w : Word) (rest : List HostEvent), s.inputs = .resetDuring w :: rest →
    ∃ t u v : State, step s = .next t ∧ ResetState t ∧ t.inputs = rest ∧
      (t.responses = s.responses ∨ ∃ r : Response, t.responses = s.responses ++ [r]) ∧
      step { s with inputs := .command w :: .reset :: rest } = .next u ∧ step u = .next v ∧ SameArch t v
end

