-- ==== Sys2Proof/Laws/Assembler.lean ====
section
/-! SUPPORT. The assembler reads back the text of every number in the three notations of 30_encoding.md R73, and a
comment adds nothing. -/

namespace Sys2Proof.Machine

theorem digitOf_digitChar : ∀ v, v < 16 → digitOf v.digitChar = some v := by decide

/-- Digits are read from left to right, each reading going on from the number so far. -/
theorem readDigits_append (base acc : Nat) (xs ys : List Char) :
    readDigits base acc (xs ++ ys) = (readDigits base acc xs).bind fun n => readDigits base n ys := by
  induction xs generalizing acc with
  | nil => rfl
  | cons c xs ih =>
    simp only [List.cons_append, readDigits]
    split
    · rfl
    · split
      · exact ih _
      · rfl

/-- A text that is read as digits of a base holds digits of that base only. -/
theorem digits_of_readDigits {base acc n : Nat} {cs : List Char} (h : readDigits base acc cs = some n) :
    ∀ c ∈ cs, ∃ v, digitOf c = some v ∧ v < base := by
  induction cs generalizing acc with
  | nil => simp
  | cons c cs ih =>
    simp only [readDigits] at h
    split at h
    · cases h
    · split at h
      · exact List.forall_mem_cons.mpr ⟨⟨_, ‹_›, ‹_›⟩, ih h⟩
      · cases h

theorem readDigits_toDigits {base : Nat} (two_le : 2 ≤ base) (le_sixteen : base ≤ 16) (n : Nat) :
    readDigits base 0 (base.toDigits n) = some n := by
  induction n using Nat.strongRecOn with
  | _ n ih =>
    rcases Nat.lt_or_ge n base with h | h
    · simp [Nat.toDigits_of_lt_base h, readDigits, digitOf_digitChar n (by omega), h]
    · have small : n / base < n := Nat.div_lt_self (by omega) (by omega)
      have digit : n % base < base := Nat.mod_lt n (by omega)
      rw [Nat.toDigits_of_base_le (by omega) h, readDigits_append, ih _ small]
      simp [readDigits, digitOf_digitChar (n % base) (by omega), digit, Nat.div_add_mod']

theorem toDigits_ne_nil {base : Nat} (two_le : 2 ≤ base) (n : Nat) : base.toDigits n ≠ [] := by
  rw [Nat.toDigits_eq_if (by omega)]
  split <;> simp

/-- A text without the letters of a prefix is read as a decimal number. -/
theorem readNumber_decimal {cs : List Char} (some_digit : cs ≠ []) (no_x : 'x' ∉ cs) (no_b : 'b' ∉ cs) :
    readNumber cs = readDigits 10 0 cs := by
  unfold readNumber
  split <;> simp_all

/-- Every text of a number is read as that number (R73). -/
theorem readNumber_numerals {n : Nat} {text : List Char} (h : text ∈ numerals n) : readNumber text = some n := by
  simp only [numerals, List.mem_cons, List.not_mem_nil, or_false] at h
  rcases h with rfl | rfl | rfl
  · have hd := readDigits_toDigits (base := 10) (by decide) (by decide) n
    have digits := digits_of_readDigits hd
    rw [readNumber_decimal (toDigits_ne_nil (by decide) n) ?_ ?_, hd]
    · intro hx
      obtain ⟨v, hv, _⟩ := digits _ hx
      exact absurd hv (by simp [show digitOf 'x' = none by decide])
    · intro hb
      obtain ⟨v, hv, hlt⟩ := digits _ hb
      rw [show digitOf 'b' = some 11 by decide] at hv
      cases hv
      omega
  · obtain ⟨c, cs, hc⟩ := List.exists_cons_of_ne_nil (toDigits_ne_nil (base := 16) (by decide) n)
    have hd := readDigits_toDigits (base := 16) (by decide) (by decide) n
    rw [hc] at hd ⊢
    exact hd
  · obtain ⟨c, cs, hc⟩ := List.exists_cons_of_ne_nil (toDigits_ne_nil (base := 2) (by decide) n)
    have hd := readDigits_toDigits (base := 2) (by decide) (by decide) n
    rw [hc] at hd ⊢
    exact hd

/-- The body of a line ends where its comment begins (R73). -/
theorem lineBody_comment (line comment : List Char) : lineBody (line ++ ';' :: comment) = lineBody line := by
  unfold lineBody
  congr 1
  induction line with
  | nil => simp
  | cons c cs ih => simp only [List.cons_append, List.takeWhile_cons, ih]

end Sys2Proof.Machine
end

