-- ==== Sys2Proof/Laws/Decode.lean ====
section
/-! SUPPORT. The bits of an encoded word and the verdicts of the decoder. -/

namespace Sys2Proof

/-- The decoder rejects a word for its fields only. -/
theorem decode_illegal {w : Word} {e : Status} (h : decode w = .illegal e) : e = .illegalField := by
  unfold decode decodeN decodeP decodeI at h
  repeat' split at h
  all_goals first
    | exact (Verdict.illegal.inj h).symm
    | exact absurd h (by simp)

/-- A decoded PUSH has a legal count (R67). -/
theorem decode_push {w : Word} {n : BitVec 5} {d : BitVec 16} (h : decode w = .command (.push n d)) :
    pushCountLegal n = true := by
  unfold decode decodeN decodeP decodeI at h
  repeat' split at h
  all_goals first
    | (cases h; assumption)
    | exact absurd h (by simp)

/-- The bits of `c ||| x` where `x` is a field placed at the low end of the word. -/
theorem lowField_getLsbD {v : Nat} (c : Word) (x : BitVec v) (k : Nat) (hk : k < 32) :
    (c ||| x.setWidth 32).getLsbD k = (c.getLsbD k || x.getLsbD k) := by
  simp [hk]

/-- The bits of a PUSH word (R62). -/
theorem push_getLsbD (n : BitVec 5) (d : BitVec 16) (k : Nat) (hk : k < 32) :
    (encode (.push n d)).getLsbD k =
      ((0x20000000#32).getLsbD k || (decide (16 ≤ k) && n.getLsbD (k - 16)) || d.getLsbD k) := by
  rcases Nat.lt_or_ge k 16 with h | h
  · simp [encode, hk, h, Nat.not_le.mpr h]
  · simp [encode, hk, h, Nat.not_lt.mpr h]

end Sys2Proof
end

