-- ==== Sys2Proof/Laws/Encoder.lean ====
section
/-! SUPPORT. Lemmas of the pure functions: the encoder over concatenated input, the permutation and its inverse. -/

namespace Sys2Proof.Machine

@[simp] theorem encstep_acc (acc : Word) (b : Bit) : (encstep acc b).1 = shiftIn acc b := rfl
@[simp] theorem encstep_c0 (acc : Word) (b : Bit) : (encstep acc b).2.1 = parity (shiftIn acc b &&& POLY0) := rfl
@[simp] theorem encstep_c1 (acc : Word) (b : Bit) : (encstep acc b).2.2 = parity (shiftIn acc b &&& POLY1) := rfl

@[simp] theorem accFrom_nil (acc : Word) : accFrom acc [] = acc := rfl
@[simp] theorem accFrom_cons (acc : Word) (b : Bit) (m : List Bit) :
    accFrom acc (b :: m) = accFrom (shiftIn acc b) m := rfl

theorem accFrom_append (acc : Word) (m m' : List Bit) : accFrom acc (m ++ m') = accFrom (accFrom acc m) m' :=
  List.foldl_append

/-- The encoder on a concatenation goes on from the accumulator the first part left (R83). -/
theorem convFrom_append (acc : Word) (m m' : List Bit) :
    convFrom acc (m ++ m') = convFrom acc m ++ convFrom (accFrom acc m) m' := by
  induction m generalizing acc with
  | nil => rfl
  | cons b m ih => simp [convFrom, ih]

/-- A shift keeps the low 31 bits and takes the new bit at position 0 (R21, R82). -/
theorem shiftIn_getLsbD (acc : Word) (b : Bit) (k : Nat) :
    (shiftIn acc b).getLsbD k = if k = 0 then b.getLsbD 0 else (decide (k < 32) && acc.getLsbD (k - 1)) := by
  rcases k with _ | k
  · simp [shiftIn]
  · simp [shiftIn, BitVec.getLsbD_setWidth]

/-- `INV` inverts `PERM` on the right (R90). -/
theorem perm_inv : ∀ j, perm (inv j) = j := by decide +kernel

/-- `INV` inverts `PERM` on the left (R90). -/
theorem inv_perm : ∀ i, inv (perm i) = i := by decide +kernel

theorem perm_injective : Function.Injective perm := Function.LeftInverse.injective inv_perm

end Sys2Proof.Machine
end

