-- ==== Sys2Proof/Laws/State.lean ====
section
/-! SUPPORT. One lemma per field per update of State, true by rfl: later proofs unfold no record update. -/

namespace Sys2Proof.Machine

section respond
variable (e : Status) (data : Word) (s : State)

@[simp] theorem respond_acc : (s.respond e data).acc = s.acc := rfl
@[simp] theorem respond_nin : (s.respond e data).nin = s.nin := rfl
@[simp] theorem respond_cb : (s.respond e data).cb = s.cb := rfl
@[simp] theorem respond_lasterr : (s.respond e data).lasterr = s.lasterr := rfl
@[simp] theorem respond_inputs : (s.respond e data).inputs = s.inputs := rfl
@[simp] theorem respond_responses : (s.respond e data).responses = s.responses ++ [⟨e.code, data⟩] := rfl
@[simp] theorem respond_draws : (s.respond e data).draws = s.draws := rfl

@[simp] theorem setLasterr_acc : (s.setLasterr e).acc = s.acc := rfl
@[simp] theorem setLasterr_nin : (s.setLasterr e).nin = s.nin := rfl
@[simp] theorem setLasterr_cb : (s.setLasterr e).cb = s.cb := rfl
@[simp] theorem setLasterr_lasterr : (s.setLasterr e).lasterr = e.code := rfl
@[simp] theorem setLasterr_inputs : (s.setLasterr e).inputs = s.inputs := rfl
@[simp] theorem setLasterr_responses : (s.setLasterr e).responses = s.responses := rfl
@[simp] theorem setLasterr_draws : (s.setLasterr e).draws = s.draws := rfl

end respond

section clear
variable (s : State)

@[simp] theorem clear_acc : s.clear.acc = 0 := rfl
@[simp] theorem clear_nin : s.clear.nin = 0 := rfl
@[simp] theorem clear_cb : s.clear.cb = Vector.replicate 162 none := rfl
@[simp] theorem clear_lasterr : s.clear.lasterr = 0 := rfl
@[simp] theorem clear_inputs : s.clear.inputs = s.inputs := rfl
@[simp] theorem clear_responses : s.clear.responses = s.responses := rfl
@[simp] theorem clear_draws : s.clear.draws = s.draws := rfl

end clear

section pushBit
variable (s : State) (b : Bit)

@[simp] theorem pushBit_acc : (s.pushBit b).acc = shiftIn s.acc b := rfl
@[simp] theorem pushBit_nin : (s.pushBit b).nin = s.nin + 1 := rfl
@[simp] theorem pushBit_cb : (s.pushBit b).cb =
    writeCode (writeCode s.cb (2 * s.nin.toNat) (encstep s.acc b).2.1)
      (2 * s.nin.toNat + 1) (encstep s.acc b).2.2 := rfl
@[simp] theorem pushBit_lasterr : (s.pushBit b).lasterr = s.lasterr := rfl
@[simp] theorem pushBit_inputs : (s.pushBit b).inputs = s.inputs := rfl
@[simp] theorem pushBit_responses : (s.pushBit b).responses = s.responses := rfl
@[simp] theorem pushBit_draws : (s.pushBit b).draws = s.draws := rfl

end pushBit

/-- Two states with equal fields are equal. -/
theorem State.ext_fields {s t : State} (acc : s.acc = t.acc) (nin : s.nin = t.nin) (cb : s.cb = t.cb)
    (lasterr : s.lasterr = t.lasterr) (inputs : s.inputs = t.inputs) (responses : s.responses = t.responses)
    (draws : s.draws = t.draws) : s = t := by
  cases s; cases t; simp_all

end Sys2Proof.Machine
end

