-- ==== Sys2Proof/Laws/Ops.lean ====
section
/-! SUPPORT. What each shared operation, each command and each step can do, said once. -/

namespace Sys2Proof.Machine

theorem succeed_eq (data : Word) (s : State) : succeed data s = .next (s.respond .ok data) := rfl

theorem fail_eq (e : Status) (s : State) : fail e s = .next ((s.setLasterr e).respond e 0) := rfl

theorem failed_eq (e : Status) (s : State) : (s.setLasterr e).respond e 0 = failed s e.code := rfl

theorem answered_eq (data : Word) (s : State) : s.respond .ok data = answered s 0x00#8 data := rfl

@[simp] theorem ok_code : Status.ok.code = 0x00#8 := rfl

@[simp] theorem code_eq_zero (e : Status) : e.code = 0x00#8 ↔ e = .ok := by cases e <;> decide

theorem code_le (e : Status) : e.code.toNat ≤ 5 := by cases e <;> decide

/-- An entry of the coded buffer after a write (R9). -/
theorem writeCode_get (cb : Vector (Option Bit) 162) (i : Nat) (b : Bit) (j : Fin 162) :
    (writeCode cb i b).get j = if i = j.val then some b else cb.get j := by
  simp [writeCode, Vector.get_eq_getElem, Vector.getElem_setIfInBounds]

@[simp] theorem pushBits_nil (s : State) : s.pushBits [] = s := rfl
@[simp] theorem pushBits_cons (s : State) (b : Bit) (bs : List Bit) :
    s.pushBits (b :: bs) = (s.pushBit b).pushBits bs := rfl

theorem pushBits_append (s : State) (bs bs' : List Bit) : s.pushBits (bs ++ bs') = (s.pushBits bs).pushBits bs' :=
  List.foldl_append

@[simp] theorem pushBits_acc (s : State) (bs : List Bit) : (s.pushBits bs).acc = accFrom s.acc bs := by
  induction bs generalizing s with
  | nil => rfl
  | cons b bs ih => simp [ih]

@[simp] theorem pushBits_nin (s : State) (bs : List Bit) :
    (s.pushBits bs).nin = s.nin + BitVec.ofNat 7 bs.length := by
  induction bs generalizing s with
  | nil => simp
  | cons b bs ih => simp [ih, BitVec.ofNat_add, BitVec.add_assoc, BitVec.add_comm (BitVec.ofNat 7 bs.length)]

@[simp] theorem pushBits_lasterr (s : State) (bs : List Bit) : (s.pushBits bs).lasterr = s.lasterr := by
  induction bs generalizing s with
  | nil => rfl
  | cons b bs ih => simp [ih]

@[simp] theorem pushBits_inputs (s : State) (bs : List Bit) : (s.pushBits bs).inputs = s.inputs := by
  induction bs generalizing s with
  | nil => rfl
  | cons b bs ih => simp [ih]

@[simp] theorem pushBits_responses (s : State) (bs : List Bit) : (s.pushBits bs).responses = s.responses := by
  induction bs generalizing s with
  | nil => rfl
  | cons b bs ih => simp [ih]

@[simp] theorem pushBits_draws (s : State) (bs : List Bit) : (s.pushBits bs).draws = s.draws := by
  induction bs generalizing s with
  | nil => rfl
  | cons b bs ih => simp [ih]

@[simp] theorem pushBitsOf_length (n : BitVec 5) (d : BitVec 16) : (pushBitsOf n d).length = n.toNat := by
  simp [pushBitsOf]

theorem indexOf_of_lt {x : Byte} (h : x.toNat < 162) : indexOf x = some ⟨x.toNat, h⟩ := by simp [indexOf, h]

theorem indexOf_of_ge {x : Byte} (h : 162 ≤ x.toNat) : indexOf x = none := by simp [indexOf]; omega

/-- The four ways a command can end (R100): an error response, an answer that changes no other state, CLEAR, or a
PUSH that fits. -/
inductive CommandOutcome (i : Instr) (s t : State) : Prop where
  | failed (e : Status) (error : e ≠ .ok) (notClear : i ≠ .clear) (notNop : i ≠ .nop)
      (noFit : ∀ n d, i = .push n d → pushCountLegal n = true → ¬ s.nin.toNat + n.toNat ≤ 81)
      (eq : t = (s.setLasterr e).respond e 0)
  | answered (data : Word) (instr : isRead i = true ∨ i = .nop) (eq : t = s.respond .ok data)
  | cleared (instr : i = .clear) (eq : t = s.clear.respond .ok 0)
  | pushed (n : BitVec 5) (d : BitVec 16) (instr : i = .push n d) (legal : pushCountLegal n = true)
      (fits : s.nin.toNat + n.toNat ≤ 81)
      (eq : t = (s.pushBits (pushBitsOf n d)).respond .ok ((s.nin + BitVec.ofNat 7 n.toNat).setWidth 32))

/-- A command that is neither CLEAR, NOP nor PUSH and fails, fails in the first way. -/
theorem fail_outcome {i : Instr} (e : Status) (s : State) (error : e ≠ .ok) (notClear : i ≠ .clear) (notNop : i ≠ .nop)
    (notPush : ∀ n d, i ≠ .push n d) : ∃ t, fail e s = .next t ∧ CommandOutcome i s t :=
  ⟨_, rfl, .failed e error notClear notNop (fun n d h => absurd h (notPush n d)) rfl⟩

/-- Every command ends in a next state, in one of these ways. -/
theorem exec_outcome (i : Instr) (s : State) : ∃ t, exec i s = .next t ∧ CommandOutcome i s t := by
  cases i with
  | nop => exact ⟨_, rfl, .answered _ (.inr rfl) rfl⟩
  | clear => exact ⟨_, rfl, .cleared rfl rfl⟩
  | push n d =>
    simp only [exec, execPush]
    split
    · split
      · refine ⟨_, rfl, .failed .overflow (by decide) (by simp) (by simp) ?_ rfl⟩
        rintro _ _ ⟨⟩ -
        exact Nat.not_le.mpr ‹_›
      · exact ⟨_, rfl, .pushed n d rfl ‹_› (Nat.not_lt.mp ‹¬ _›) (by simp)⟩
    · refine ⟨_, rfl, .failed .illegalField (by decide) (by simp) (by simp) ?_ rfl⟩
      rintro _ _ ⟨⟩ h
      exact absurd h ‹_›
  | readsym x =>
    simp only [exec, execReadsym]
    split
    · exact fail_outcome .range s (by decide) (by simp) (by simp) (by simp)
    · split
      · exact fail_outcome .notReady s (by decide) (by simp) (by simp) (by simp)
      · split
        · exact fail_outcome .notReady s (by decide) (by simp) (by simp) (by simp)
        · exact ⟨_, rfl, .answered _ (.inl rfl) rfl⟩
  | readcode x =>
    simp only [exec, execReadcode]
    split
    · exact fail_outcome .range s (by decide) (by simp) (by simp) (by simp)
    · split
      · exact fail_outcome .notReady s (by decide) (by simp) (by simp) (by simp)
      · exact ⟨_, rfl, .answered _ (.inl rfl) rfl⟩
  | readstat => exact ⟨_, rfl, .answered _ (.inl rfl) rfl⟩
  | readacc => exact ⟨_, rfl, .answered _ (.inl rfl) rfl⟩
  | readperm x =>
    simp only [exec, execReadperm]
    split
    · exact fail_outcome .range s (by decide) (by simp) (by simp) (by simp)
    · exact ⟨_, rfl, .answered _ (.inl rfl) rfl⟩
  | readsync x =>
    simp only [exec, execReadsync]
    split
    · exact fail_outcome .range s (by decide) (by simp) (by simp) (by simp)
    · exact ⟨_, rfl, .answered _ (.inl rfl) rfl⟩
  | reserved9 rest => exact fail_outcome .illegalOpcode s (by decide) (by simp) (by simp) (by simp)
  | reservedAB rest => exact fail_outcome .illegalOpcode s (by decide) (by simp) (by simp) (by simp)
  | reservedCF rest => exact fail_outcome .illegalOpcode s (by decide) (by simp) (by simp) (by simp)

/-- The way a command that answers a next state ended. -/
theorem exec_next {i : Instr} {s t : State} (h : exec i s = .next t) : CommandOutcome i s t := by
  obtain ⟨u, hu, hout⟩ := exec_outcome i s
  rw [h] at hu
  cases hu
  exact hout

theorem step_nil {s : State} (h : s.inputs = []) : step s = .next s := by simp [step, stepEvent, h]

theorem step_cons {s : State} {e : HostEvent} {rest : List HostEvent} (h : s.inputs = e :: rest) :
    step s = runEvent e { s with inputs := rest } := by simp [step, stepEvent, h]

theorem runWord_command {w : Word} {i : Instr} (h : decode w = .command i) (s : State) : runWord w s = exec i s := by
  simp [runWord, h]

theorem runWord_illegal {w : Word} {e : Status} (h : decode w = .illegal e) (s : State) : runWord w s = fail e s := by
  simp [runWord, h]

theorem readableCode_of_lt {s : State} {i : Fin 162} (h : i.val < 2 * s.nin.toNat) : s.readableCode i = s.cb.get i := by
  simp [State.readableCode, h]

theorem readableCode_of_ge {s : State} {i : Fin 162} (h : 2 * s.nin.toNat ≤ i.val) : s.readableCode i = none := by
  simp [State.readableCode, Nat.not_lt.mpr h]

/-- Every command word ends in a next state: that of its command, or the ILLEGAL_FIELD failure (R72, R100). -/
theorem runWord_outcome (w : Word) (s : State) : ∃ t, runWord w s = .next t ∧
    ((∃ i, decode w = .command i ∧ CommandOutcome i s t) ∨
      (decode w = .illegal .illegalField ∧ t = failed s 0x02#8)) := by
  cases h : decode w with
  | command i =>
    obtain ⟨t, ht, hout⟩ := exec_outcome i s
    exact ⟨t, (runWord_command h s).trans ht, .inl ⟨i, rfl, hout⟩⟩
  | illegal e =>
    obtain rfl := decode_illegal h
    exact ⟨_, runWord_illegal h s, .inr ⟨rfl, rfl⟩⟩

theorem runReset_eq (s : State) : runReset s = .next s.clear := rfl

/-- A reset that lands while a command is outstanding: the reset state, and the command's response or none (R172). -/
theorem runResetDuring_eq {w : Word} {s t : State} (h : runWord w s = .next t) :
    runResetDuring w s = .next { s.clear with
      responses := if Config.responseSurvives s.draws then t.responses else s.responses
      draws := s.draws + 1 } := by
  simp [runResetDuring, h]

end Sys2Proof.Machine
end

