-- ==== Sys2Proof/Laws/PerInstr.lean ====
section
/-! SUPPORT. The family `EncodedInRow`: the word of a command lies in the row of the opcode map that the command
belongs to, `(w & mask) = match` (30_encoding.md R64), one lemma per constructor. -/

namespace Sys2Proof.Laws.EncodedInRow

/-- The word of `i` is selected by the row of `i`. -/
def Statement (i : Instr) : Prop := i.row.selects (encode i) = true

/-- A row whose mask keeps the bits above a field selects every word with the row's pattern and that field. -/
theorem selects_low {v : Nat} (c mask : Word) (x : BitVec v) (keep : c &&& mask = c)
    (above : ∀ k, k < v → mask.getLsbD k = false) : (OpcodeRow.mk mask c).selects (c ||| x.setWidth 32) = true := by
  refine beq_iff_eq.mpr ?_
  apply BitVec.eq_of_getLsbD_eq
  intro k hk
  have hc : c.getLsbD k = (c.getLsbD k && mask.getLsbD k) := by rw [← BitVec.getLsbD_and, keep]
  rw [BitVec.getLsbD_and, lowField_getLsbD c x k hk]
  rcases Nat.lt_or_ge k v with h | h
  · simp [above k h] at hc ⊢
    exact hc
  · rw [BitVec.getLsbD_of_ge x k h, Bool.or_false]
    exact hc.symm

theorem nop : Statement .nop := by unfold Statement; decide
theorem clear : Statement .clear := by unfold Statement; decide

theorem push (n : BitVec 5) (d : BitVec 16) : Statement (.push n d) := by
  have h : encode (.push n d) &&& 0xFFE00000#32 = 0x20000000#32 := by
    apply BitVec.eq_of_getLsbD_eq
    intro k hk
    rw [BitVec.getLsbD_and, push_getLsbD n d k hk]
    rcases Nat.lt_or_ge k 21 with h | h
    · have : (0xFFE00000#32).getLsbD k = false ∧ (0x20000000#32).getLsbD k = false := by
        interval_cases k <;> decide
      simp [this]
    · rw [BitVec.getLsbD_of_ge n (k - 16) (by omega), BitVec.getLsbD_of_ge d k (by omega)]
      interval_cases k <;> decide
  simp [Statement, Instr.row, OpcodeRow.selects, h]

theorem readsym (x : Byte) : Statement (.readsym x) :=
  selects_low 0x30000000#32 0xFFFFFF00#32 x (by decide) (by decide)

theorem readcode (x : Byte) : Statement (.readcode x) :=
  selects_low 0x40000000#32 0xFFFFFF00#32 x (by decide) (by decide)

theorem readstat : Statement .readstat := by unfold Statement; decide
theorem readacc : Statement .readacc := by unfold Statement; decide

theorem readperm (x : Byte) : Statement (.readperm x) :=
  selects_low 0x70000000#32 0xFFFFFF00#32 x (by decide) (by decide)

theorem readsync (x : Byte) : Statement (.readsync x) :=
  selects_low 0x80000000#32 0xFFFFFF00#32 x (by decide) (by decide)

theorem reserved9 (rest : BitVec 28) : Statement (.reserved9 rest) :=
  selects_low 0x90000000#32 0xF0000000#32 rest (by decide) (by decide)

theorem reservedAB (rest : BitVec 29) : Statement (.reservedAB rest) :=
  selects_low 0xA0000000#32 0xE0000000#32 rest (by decide) (by decide)

theorem reservedCF (rest : BitVec 30) : Statement (.reservedCF rest) :=
  selects_low 0xC0000000#32 0xC0000000#32 rest (by decide) (by decide)

end Sys2Proof.Laws.EncodedInRow
end

