-- ==== Sys2Proof/Tests/Slice0.lean ====
section
/-! SUPPORT. Tests. Every expected result is a vector of spec/95_test_vectors.md, named beside it, or an example of the rule
named beside it. The theorems named test_witness_<Statement> show concrete operands that meet the hypotheses of a
statement of Certificates/Slice0/Obligations.lean. The option has the kernel check them one after another, which
keeps the memory of a build small. -/

set_option Elab.async false

namespace Sys2Proof.Tests

open Sys2Proof Sys2Proof.Machine

/-- The next state of a command or step, if there is one. -/
def after : Result → Option State
  | .next t => some t
  | .fault _ => none
  | .refused _ => none

/-- The latest response. -/
def answer (r : Result) : Option Response := (after r).bind fun t => t.responses.getLast?

/-- The low `n` bits of a number, most significant first: how the spec writes messages and coded messages. -/
def bitsOf (n v : Nat) : List Bit := (List.range n).reverse.map fun t => BitVec.ofNat 1 (v >>> t)

/-- The golden input message V-MSG-1. -/
def goldenBits : List Bit := bitsOf 81 0x1ee1847161a3280000000

/-- V-MSG-1 as a message. -/
def golden : Message := ⟨goldenBits.toArray, by decide⟩

/-- Reset, with bits pushed. -/
def pushed (bs : List Bit) : State := State.reset.pushBits bs

/-- Reset, with the host's events. -/
def withInputs (es : List HostEvent) : State := { State.reset with inputs := es }

/-! ### Well-formedness -/

/-- R67: a count of 0 is refused. -/
theorem test_push_count_zero_ill_formed : (Instr.push 0 0).wellFormed = false := by decide
/-- R67: a count of 17 is refused. -/
theorem test_push_count_seventeen_ill_formed : (Instr.push 17 0).wellFormed = false := by decide

/-! ### Decoding: words written out from the formats of R61 to R65 -/

theorem test_decode_nop : decode (0b0000#4 ++ 0b0000000000000000000000000000#28) = .command .nop := by decide
theorem test_decode_clear : decode (0b0001#4 ++ 0b0000000000000000000000000000#28) = .command .clear := by decide
theorem test_decode_push :
    decode (0b0010#4 ++ 0b0000000#7 ++ 0b10000#5 ++ 0b1111011100001100#16) = .command (.push 16 0xF70C) := by decide
theorem test_decode_readsym : decode (0b0011#4 ++ 0#20 ++ 0b10100001#8) = .command (.readsym 161) := by decide
theorem test_decode_readcode : decode (0b0100#4 ++ 0#20 ++ 0b11111111#8) = .command (.readcode 255) := by decide
theorem test_decode_readstat : decode (0b0101#4 ++ 0#28) = .command .readstat := by decide
theorem test_decode_readacc : decode (0b0110#4 ++ 0#28) = .command .readacc := by decide
theorem test_decode_readperm : decode (0b0111#4 ++ 0#20 ++ 0b00000001#8) = .command (.readperm 1) := by decide
theorem test_decode_readsync : decode (0b1000#4 ++ 0#20 ++ 0b00000010#8) = .command (.readsync 2) := by decide
/-- V-CMD-39. -/
theorem test_decode_reserved9 : decode 0x9FFFFFFF#32 = .command (.reserved9 0xFFFFFFF) := by decide
theorem test_decode_reservedAB : decode (0b1011#4 ++ 0b101#28) = .command (.reservedAB (0b1#1 ++ 0b101#28)) := by decide
/-- V-CMD-38. -/
theorem test_decode_reservedCF : decode 0xFFFFFFFF#32 = .command (.reservedCF 0x3FFFFFFF) := by decide
/-- V-CMD-11: a set reserved bit of format P. -/
theorem test_decode_push_reserved_bit : decode 0x20210001#32 = .illegal .illegalField := by decide
/-- V-CMD-20: a set reserved bit of format I. -/
theorem test_decode_readsym_reserved_bit : decode 0x30000100#32 = .illegal .illegalField := by decide
/-- R103's encoding `0x20000000 | (n << 16) | d`. -/
theorem test_encode_push : encode (.push 1 1) = 0x20010001#32 := by decide
/-- The word as the host of the pipeline gives it. -/
theorem test_decode_table_word : decodeTableWord 32 0x700000A1 = some (.readperm 161) := by decide

/-! ### Functions -/

/-- V-PAR. -/
theorem test_parity : [0x00000000#32, 0x00000007, 0xFFFFFFFF, 0xFFFFFFFE, 0xF2D05351, 0xE0401041].map parity =
    [0, 1, 0, 1, 1, 1] := by decide +kernel
/-- V-STEP: the last row. -/
theorem test_encstep : encstep 0x0F70C238#32 1 = (0x1EE18471#32, 1, 1) := by decide +kernel
/-- V-STEP: bit 31 is lost. -/
theorem test_encstep_top_bit_lost : encstep 0x80000000#32 0 = (0x00000000#32, 0, 0) := by decide +kernel
/-- V-CONV-3: the impulse response. -/
theorem test_conv_impulse : convBits (bitsOf 81 (2 ^ 80)) = bitsOf 162 0x352329761027892fc000000000000000000000000 := by
  decide +kernel
/-- V-CONV-5: the golden message. -/
theorem test_conv_golden : (conv golden).toList = bitsOf 162 0x3be393552ae36c7e7fbab5445e07f6a33db55634f := by
  decide +kernel
/-- V-CONV-6: the alternating message and its final accumulator. -/
theorem test_conv_alternating :
    convBits (bitsOf 81 0x155555555555555555555) = bitsOf 162 0x36475cbdcce918a59999999999999999999999999 ∧
    accFrom 0 (bitsOf 81 0x155555555555555555555) = 0x55555555#32 := by decide +kernel
/-- V-REV. -/
theorem test_rev8 : [0, 1, 2, 3, 5, 11, 127, 129, 255].map (fun i => (rev8 (BitVec.ofNat 8 i)).toNat) =
    [0, 128, 64, 192, 160, 208, 254, 129, 255] := by decide +kernel
/-- V-PERM: spot checks and the sum. -/
theorem test_perm : [0, 1, 3, 4, 80, 81, 85, 161].map perm = [0, 128, 32, 160, 126, 1, 161, 127] ∧
    ((List.finRange 162).map fun i => (perm i).val).sum = 13041 := by decide +kernel
/-- The inverse table of R90, first and last row. -/
theorem test_inv : [0, 1, 2, 3, 9, 160, 161].map inv = [0, 81, 41, 122, 92, 4, 85] := by decide +kernel
/-- V-FRAME-4, with the default `SYNC`. -/
theorem test_frame_golden : (frameWith Config.syncDefault golden).toList =
   [3, 3, 0, 0, 2, 0, 0, 0, 1, 0, 2, 0, 1, 3, 1, 2, 2, 2] ++
   [1, 0, 0, 3, 2, 3, 1, 3, 3, 2, 2, 0, 2, 0, 0, 0, 3, 2] ++
   [0, 1, 2, 3, 2, 2, 0, 0, 2, 2, 3, 2, 1, 1, 0, 2, 3, 3] ++
   [2, 1, 0, 2, 2, 1, 3, 2, 1, 2, 2, 2, 0, 3, 3, 0, 3, 0] ++
   [3, 0, 1, 2, 1, 0, 2, 1, 2, 0, 3, 2, 1, 3, 2, 0, 0, 3] ++
   [3, 2, 3, 0, 3, 2, 2, 0, 3, 0, 2, 0, 2, 0, 1, 0, 2, 3] ++
   [0, 2, 1, 1, 1, 2, 3, 3, 0, 2, 3, 1, 2, 1, 2, 2, 2, 1] ++
   [3, 3, 2, 0, 0, 0, 0, 1, 0, 3, 2, 0, 1, 3, 2, 2, 2, 2] ++
   [2, 0, 2, 3, 3, 2, 3, 2, 3, 3, 2, 0, 0, 3, 1, 2, 2, 2] := by
  decide +kernel
/-- R93: the default has 63 ones and 99 zeros. -/
theorem test_sync_default_ones : Config.syncDefaultBits.length = 162 ∧ Config.syncDefaultBits.count 1 = 63 := by
  decide +kernel

/-! ### Commands (V-CMD) -/

/-- V-CMD-1. -/
theorem test_nop : answer (exec .nop State.reset) = some ⟨0x00, 0⟩ := by decide +kernel
/-- V-CMD-2: the word 0x00000001. -/
theorem test_nop_field : (after (step (withInputs [.command 0x00000001]))).map (fun t => (t.lasterr, t.responses)) =
    some (0x02, [⟨0x02, 0⟩]) := by decide +kernel
/-- V-CMD-3, on the complete golden frame. -/
theorem test_clear : (after (exec .clear (pushed goldenBits))).map (fun t => (t.acc, t.nin, t.cb, t.lasterr)) =
    some (0, 0, Vector.replicate 162 none, 0) := by decide +kernel
/-- V-CMD-5. -/
theorem test_push_one : (after (exec (.push 1 1) State.reset)).map (fun t => (t.acc, t.nin, t.cb.get 0, t.cb.get 1, t.cb.get 2)) =
    some (1, 1, some 1, some 1, none) := by decide +kernel
/-- V-CMD-13: 66 + 16 bits do not fit and none is consumed. -/
theorem test_push_overflow : (after (exec (.push 16 0) (pushed (bitsOf 66 0)))).map (fun t => (t.nin, t.lasterr, t.responses)) =
    some (66, 0x04, [⟨0x04, 0⟩]) := by decide +kernel
/-- V-CMD-19: RANGE before NOT_READY. -/
theorem test_readsym_range_first : answer (exec (.readsym 200) State.reset) = some ⟨0x03, 0⟩ := by decide +kernel
/-- V-CMD-15, with the one value of `SYNC` it needs as a hypothesis: READSYM 0 of the golden frame is 3. -/
theorem test_readsym_golden (h : Config.sync 0 = 1) : answer (exec (.readsym 0) (pushed goldenBits)) = some ⟨0x00, 3⟩ := by
  have hcb : (pushed goldenBits).cb.get (inv 0) = some 1 := by decide +kernel
  have hn : ¬ (pushed goldenBits).nin.toNat < Config.ninfo := by decide +kernel
  have hr : (pushed goldenBits).responses = [] := by decide +kernel
  simp only [exec, execReadsym, indexOf_of_lt (x := 0) (by decide)]
  rw [if_neg hn]
  simp only [show (⟨(0 : Byte).toNat, by decide⟩ : Fin 162) = 0 from rfl, hcb, h, succeed_eq, answer, after,
    Option.bind_some, respond_responses, hr]
  decide
/-- V-CMD-21. -/
theorem test_readcode : answer (exec (.readcode 1) (pushed [1])) = some ⟨0x00, 1⟩ := by decide +kernel
/-- V-CMD-22. -/
theorem test_readcode_not_ready : answer (exec (.readcode 2) (pushed [1])) = some ⟨0x05, 0⟩ := by decide +kernel
/-- The example of R106. -/
theorem test_readstat : answer (exec .readstat ((pushed goldenBits).setLasterr .range)) = some ⟨0x00, 0x000003D1⟩ := by
  decide +kernel
/-- V-CMD-27. -/
theorem test_readacc : answer (exec .readacc (pushed goldenBits)) = some ⟨0x00, 0x80000000⟩ := by decide +kernel
/-- V-CMD-31. -/
theorem test_readperm : answer (exec (.readperm 161) State.reset) = some ⟨0x00, 0x7F⟩ := by decide +kernel
/-- V-CMD-32. -/
theorem test_readperm_range : answer (exec (.readperm 162) State.reset) = some ⟨0x03, 0⟩ := by decide +kernel
/-- V-CMD-36. -/
theorem test_readsync_range : answer (exec (.readsync 162) State.reset) = some ⟨0x03, 0⟩ := by decide +kernel
/-- V-CMD-37. -/
theorem test_reserved : (after (step (State.reset.withFetchWord 32 0x90000000))).map (fun t => (t.lasterr, t.responses)) =
    some (0x01, [⟨0x01, 0⟩]) := by decide +kernel
/-- V-CMD-40: ILLEGAL_FIELD before OVERFLOW. -/
theorem test_field_before_overflow : answer (runWord 0x20200001 (pushed goldenBits)) = some ⟨0x02, 0⟩ := by decide +kernel
/-- R170: reset gives no response. -/
theorem test_reset_event : (after (step { pushed goldenBits with inputs := [.reset] })).map (fun t => (t.nin, t.acc, t.responses)) =
    some (0, 0, []) := by decide +kernel
/-- The fetched word is run by the very next step. -/
theorem test_fetch_runs_the_word : step (State.reset.withFetchWord 32 0x20010001) = exec (.push 1 1) State.reset := rfl

/-! ### Assembler (R73, the source texts of section 4 and P3) -/

theorem test_assemble_push : assembleLine "PUSH 2, 0b11        ; 80+2 > 81".toList = some [.push 2 3] := by decide +kernel
theorem test_assemble_hexadecimal : assembleLine "PUSH 16, 0xF70C".toList = some [.push 16 0xF70C] := by decide +kernel
theorem test_assemble_rejects_high_data : assembleLine "PUSH 1, 2".toList = none := by decide +kernel
theorem test_assemble_index : assembleLine "READSYM 200".toList = some [.readsym 200] := by decide +kernel
/-- P2: the words of FRAME on the golden message. -/
theorem test_frame_words : (frameCommands golden).map encode =
    [0x10000000, 0x2010F70C, 0x2010238B, 0x20100D19, 0x20104000, 0x20100000, 0x20010000] := by decide +kernel

/-! ### Witnesses: operands that meet the hypotheses of each statement, at the boundary of each clause -/

theorem done_inv : StateInv (pushed goldenBits) := by unfold StateInv; decide +kernel
theorem partial_inv : StateInv (pushed [1]) := by unfold StateInv; decide +kernel
theorem partial65_inv : StateInv (pushed (bitsOf 65 0)) := by unfold StateInv; decide +kernel
theorem reset_state : ResetState State.reset := ⟨rfl, rfl, rfl, rfl⟩
theorem reset_inv : StateInv State.reset := by
  refine ⟨by decide, fun i => ?_, by decide⟩
  simp [State.reset, Vector.get_eq_getElem]
theorem one_holds : Holds [1] (pushed [1]) := by unfold Holds; decide +kernel
theorem golden_holds : Holds golden.toList (pushed goldenBits) := by unfold Holds; decide +kernel

theorem test_witness_DecodeOfEncodeIsTheCommand :
    (Instr.push 1 0xFFFF).wellFormed = true ∧ (Instr.push 16 0).wellFormed = true := by decide
theorem test_witness_DecodedCommandHasOnlyItsWord : decode 0x20108000#32 = .command (.push 16 0x8000) := by decide
theorem test_witness_DecodeFollowsTheOpcodeMap :
    (decode 0x20010000#32 = .command (.push 1 0)) ∧
    (Instr.row (.push 0 0) ∈ opcodeMap ∧ (Instr.row (.push 0 0)).selects 0x20010000 = true ∧ ¬ illegalInFields 0x20010000) ∧
    illegalInFields 0x00000001 := by decide
theorem test_witness_ReservedOpcodeWordsRaiseIllegalOpcode :
    (withInputs [.command 0x90000000]).inputs = .command 0x90000000 :: [] ∧
    9 ≤ (opcodeField 0x90000000).toNat ∧ 9 ≤ (opcodeField 0xFFFFFFFF).toNat := by decide
theorem test_witness_ReservedFieldWordsRaiseIllegalField :
    (withInputs [.command 0x00000001]).inputs = .command 0x00000001 :: [] ∧
    ((opcodeField 0x00000001).toNat ∈ [0x0, 0x1, 0x5, 0x6] ∧ (0x00000001#32).extractLsb' 0 28 ≠ 0) ∧
    ((opcodeField 0x20210001).toNat = 0x2 ∧ (0x20210001#32).extractLsb' 21 7 ≠ 0) ∧
    ((opcodeField 0x30000100).toNat ∈ [0x3, 0x4, 0x7, 0x8] ∧ (0x30000100#32).extractLsb' 8 20 ≠ 0) := by decide
theorem test_witness_PushCountIsLegalFromOneToSixteen :
    ((opcodeField 0x20000000).toNat = 0x2 ∧ ((0x20000000#32).extractLsb' 16 5).toNat = 0) ∧
    ((opcodeField 0x20110000).toNat = 0x2 ∧ 17 ≤ ((0x20110000#32).extractLsb' 16 5).toNat) ∧
    ((opcodeField 0x20100000).toNat = 0x2 ∧ (0x20100000#32).extractLsb' 21 7 = 0 ∧
      1 ≤ ((0x20100000#32).extractLsb' 16 5).toNat ∧ ((0x20100000#32).extractLsb' 16 5).toNat ≤ 16) := by decide
/-- V-CMD-6 and V-CMD-7. -/
theorem test_witness_PushIgnoresDataAboveItsCount : (opcodeField 0x20010000).toNat = 0x2 ∧
    ∀ k, k < ((0x20010000#32).extractLsb' 16 5).toNat ∨ 16 ≤ k →
      (0x20010000#32).getLsbD k = (0x2001FFFE#32).getLsbD k := by
  refine ⟨by decide, fun k => ?_⟩
  rcases Nat.lt_or_ge k 32 with h | h
  · revert k; decide
  · intro _; rw [BitVec.getLsbD_of_ge _ k h, BitVec.getLsbD_of_ge _ k h]
theorem test_witness_IndexAbove161RaisesRange :
    ((opcodeField 0x300000A2).toNat ∈ [0x3, 0x4, 0x7, 0x8] ∧ (0x300000A2#32).extractLsb' 8 20 = 0 ∧
      162 ≤ ((0x300000A2#32).extractLsb' 0 8).toNat) ∧
    ((opcodeField 0x300000A1).toNat ∈ [0x3, 0x4, 0x7, 0x8] ∧ (0x300000A1#32).extractLsb' 8 20 = 0 ∧
      ((0x300000A1#32).extractLsb' 0 8).toNat < 162) := by decide
/-- An accepted line; the largest PUSH that fits its count and one data bit too many; the indices 161, 162, 255, 256. -/
theorem test_witness_AssembledCommandsAreWellFormed :
    (assembleLine "PUSH 16, 0x8000".toList = some [.push 16 0x8000] ∧ Instr.push 16 0x8000 ∈ [Instr.push 16 0x8000]) ∧
    ("16".toList ∈ numerals 16 ∧ "0xffff".toList ∈ numerals 65535 ∧ "0b10".toList ∈ numerals 2) ∧
    ((1 ≤ 16 ∧ 16 ≤ 16 ∧ 65535 < 2 ^ 16) ∧ ¬ (1 ≤ 1 ∧ 1 ≤ 16 ∧ 2 < 2 ^ 1)) ∧
    ("161".toList ∈ numerals 161 ∧ "0xa2".toList ∈ numerals 162 ∧ "255".toList ∈ numerals 255 ∧
      "256".toList ∈ numerals 256) := by decide +kernel
theorem test_witness_CodedBitsComeInPairsPerInputBit : 0 < 81 ∧ 80 < 81 := by decide
/-- Two messages that differ in their first bit only, at `k = 40` (the window is 9..40), and at `k = 80`. -/
theorem test_witness_CodedBitsDependOnThe32LatestInputs :
    (∀ q (hq : q ≤ 40), 40 - 31 ≤ q → golden[q] = (golden.set 0 0)[q]) ∧ golden ≠ golden.set 0 0 ∧
    (∀ q (hq : q ≤ 80), 80 - 31 ≤ q → golden[q] = (golden.set 0 0)[q]) := by decide +kernel
theorem test_witness_PermIsABijectionWithEvenHalfFirst :
    (80 : Fin 162).val ≤ 80 ∧ 81 ≤ (81 : Fin 162).val ∧ (0 : Fin 162) < 161 := by decide
theorem test_witness_ByteReversalMirrorsBits : 0 < 8 ∧ 7 < 8 := by decide
theorem test_witness_StepRunsTheDecodedCommand :
    (withInputs [.command 0x10000000]).inputs = .command 0x10000000 :: [] ∧ decode 0x10000000 = .command .clear ∧
    decode 0x00000001 = .illegal .illegalField := by decide
theorem test_witness_StepWithoutEventWaits : State.reset.inputs = [] := rfl
theorem test_witness_EveryCommandWordGetsOneResponse :
    (withInputs [.command 0xFFFFFFFF]).inputs = .command 0xFFFFFFFF :: [] := rfl
/-- The same architectural state with other responses, and a word that fails. -/
theorem test_witness_CommandDependsOnArchitecturalStateOnly :
    SameArch (withInputs [.command 0x30000000]) { withInputs [.command 0x30000000, .reset] with responses := [⟨0, 5⟩] } ∧
    ∃ t, step (withInputs [.command 0x30000000]) = .next t := ⟨⟨rfl, rfl, rfl, rfl⟩, _, rfl⟩
theorem test_witness_NopOnlyAnswers : (opcodeField 0x00000001).toNat = 0x0 ∧ (0x00000001#32) ≠ 0x00000000 := by decide
/-- The word of V-CMD-4. -/
theorem test_witness_ClearBeginsANewFrame :
    ((opcodeField 0x10000100).toNat = 0x1 ∧ (0x10000100#32) ≠ 0x10000000) ∧
    ∃ t, exec .clear (pushed goldenBits) = .next t := ⟨by decide, _, rfl⟩
/-- V-CMD-12 and V-CMD-13; V-CMD-6 and V-CMD-7; V-CMD-9. -/
theorem test_witness_PushConsumesAllItsBitsOrNone :
    (1 ≤ (16 : BitVec 5).toNat ∧ (16 : BitVec 5).toNat ≤ 16 ∧
      (pushed (bitsOf 65 0)).nin.toNat + (16 : BitVec 5).toNat ≤ 81 ∧
      81 < (pushed (bitsOf 66 0)).nin.toNat + (16 : BitVec 5).toNat) ∧
    (∀ k, k < (1 : BitVec 5).toNat → (0 : BitVec 16).getLsbD k = (0xFFFE : BitVec 16).getLsbD k) ∧
    ((opcodeField 0x20000000).toNat = 0x2 ∧ illegalInFields 0x20000000) := by decide +kernel
theorem test_witness_PushTakesMostSignificantBitFirst :
    (0 < (31 : BitVec 5).toNat ∧ 30 < (31 : BitVec 5).toNat) ∧
    ((16 : BitVec 5).toNat ≤ 16 ∧ (bitsOf 16 0xF70C).length = (16 : BitVec 5).toNat) := by decide
/-- The two splits of P4. -/
theorem test_witness_FrameMayBePushedInAnySplit :
    (∀ p ∈ ([(1, 1), (15, 0)] : List (BitVec 5 × BitVec 16)), 1 ≤ p.1.toNat ∧ p.1.toNat ≤ 16) ∧
    (∀ q ∈ ([(16, 0x8000)] : List (BitVec 5 × BitVec 16)), 1 ≤ q.1.toNat ∧ q.1.toNat ≤ 16) ∧
    pushedBits [(1, 1), (15, 0)] = pushedBits [(16, 0x8000)] ∧
    (pushed (bitsOf 65 0)).nin.toNat + (pushedBits [(1, 1), (15, 0)]).length ≤ 81 := by
  refine ⟨by simp, by simp, by decide +kernel, ?_⟩
  rw [show (pushed (bitsOf 65 0)).nin = 65 by decide +kernel, show (pushedBits [(1, 1), (15, 0)]).length = 16 by decide +kernel]
  decide
theorem test_witness_ReadsymAnswersOnceTheFrameIsDone :
    162 ≤ (162 : Byte).toNat ∧ ((161 : Byte).toNat < 162 ∧ (pushed (bitsOf 80 0)).nin.toNat < 81) ∧
    (StateInv (pushed goldenBits) ∧ (pushed goldenBits).nin.toNat = 81) ∧
    ((opcodeField 0x30000100).toNat = 0x3 ∧ illegalInFields 0x30000100) :=
  ⟨by decide, by decide +kernel, ⟨done_inv, by decide +kernel⟩, by decide⟩
theorem test_witness_ReadcodeAnswersWrittenEntries :
    162 ≤ (162 : Byte).toNat ∧ ((2 : Byte).toNat < 162 ∧ 2 * (pushed [1]).nin.toNat ≤ (2 : Byte).toNat) ∧
    (StateInv (pushed [1]) ∧ (1 : Byte).toNat < 2 * (pushed [1]).nin.toNat) ∧
    ((opcodeField 0x40000100).toNat = 0x4 ∧ illegalInFields 0x40000100) :=
  ⟨by decide, by decide +kernel, ⟨partial_inv, by decide +kernel⟩, by decide⟩
/-- A state that no run reaches: complete by its counter, with every entry unwritten. -/
theorem test_witness_UnwrittenEntryIsNeverAnswered : (161 : Byte).toNat < 162 ∧
    ({ State.reset with nin := 81 } : State).cb.get 161 = none ∧
    ({ State.reset with nin := 81 } : State).cb.get (inv 161) = none := by decide +kernel
theorem test_witness_ReadstatShowsEveryField : StateInv (pushed goldenBits) ∧
    ((opcodeField 0x50000001).toNat = 0x5 ∧ illegalInFields 0x50000001) := ⟨done_inv, by decide⟩
theorem test_witness_ReadaccAnswersTheAccumulator : 32 ≤ 32 ∧
    (∀ q (_ : q < 81), 50 ≤ q → golden[q] = 0) ∧
    ((opcodeField 0x60000001).toNat = 0x6 ∧ illegalInFields 0x60000001) := by decide +kernel
theorem test_witness_ReadpermAnswersInEveryState : 162 ≤ (162 : Byte).toNat ∧ (161 : Byte).toNat < 162 ∧
    ((opcodeField 0x70000100).toNat = 0x7 ∧ illegalInFields 0x70000100) := by decide
theorem test_witness_ReadsyncAnswersInEveryState : 162 ≤ (162 : Byte).toNat ∧ (161 : Byte).toNat < 162 ∧
    ((opcodeField 0x80000100).toNat = 0x8 ∧ illegalInFields 0x80000100) := by decide
theorem test_witness_ReadsAreIdempotent : isRead (.readcode 0) = true ∧
    (∃ t, exec (.readcode 0) State.reset = .next t) ∧ ∃ t, exec (.readcode 0) (pushed [1]) = .next t :=
  ⟨rfl, ⟨_, rfl⟩, (exec_outcome _ _).imp fun _ h => h.1⟩
theorem test_witness_ReadDataIsZeroExtended : StateInv State.reset ∧
    ∃ t r, exec .readstat State.reset = .next t ∧ t.responses = State.reset.responses ++ [r] :=
  ⟨reset_inv, _, _, rfl, rfl⟩
/-- The PUSH that completes the frame, and the symbol that reads the last coded bit. -/
theorem test_witness_ReadRightAfterPushSeesTheNewBits : StateInv (pushed (bitsOf 65 0)) ∧
    (161 : Byte).toNat < 162 ∧ 1 ≤ (16 : BitVec 5).toNat ∧ (16 : BitVec 5).toNat ≤ 16 ∧
    (pushed (bitsOf 65 0)).nin.toNat + (16 : BitVec 5).toNat = 81 ∧
    2 * (pushed (bitsOf 65 0)).nin.toNat ≤ (161 : Byte).toNat ∧
    (161 : Byte).toNat < 2 * ((pushed (bitsOf 65 0)).nin.toNat + (16 : BitVec 5).toNat) ∧ inv 127 = 161 :=
  ⟨partial65_inv, by decide +kernel⟩
theorem test_witness_StatusIsTheFirstCauseThatApplies : StateInv (withInputs [.command 0x300000C8]) ∧
    (withInputs [.command 0x300000C8]).inputs = .command 0x300000C8 :: [] ∧
    expectedStatus (withInputs [.command 0x300000C8]) 0x300000C8 = 0x03 :=
  ⟨reset_inv, rfl, by decide +kernel⟩
theorem test_witness_FailingCommandChangesOnlyLasterr : ∃ t r, step (withInputs [.command 0x30000000]) = .next t ∧
    t.responses = (withInputs [.command 0x30000000]).responses ++ [r] ∧ r.status ≠ 0x00#8 :=
  ⟨_, _, rfl, rfl, by decide⟩
theorem test_witness_LasterrHoldsTheLatestFailure :
    (∃ t, step (withInputs [.command 0x10000000]) = .next t) ∧ ∃ t, step (withInputs [.reset]) = .next t :=
  ⟨⟨_, rfl⟩, _, rfl⟩
theorem test_witness_ResetMeetsTheInvariant : ResetState State.reset := reset_state
theorem test_witness_EveryStepKeepsTheInvariant : StateInv (withInputs [.command 0x20010001]) ∧
    ∃ t, step (withInputs [.command 0x20010001]) = .next t := ⟨reset_inv, _, rfl⟩
theorem test_witness_DoneMeansEveryEntryIsWritten : StateInv (pushed goldenBits) ∧ (pushed goldenBits).done = true :=
  ⟨done_inv, by decide +kernel⟩
theorem test_witness_OnlyClearAndResetLowerTheCounter :
    StateInv { pushed [1] with inputs := [.command 0x10000000] } ∧
    ∃ t, step { pushed [1] with inputs := [.command 0x10000000] } = .next t ∧
      t.nin.toNat < ({ pushed [1] with inputs := [.command 0x10000000] } : State).nin.toNat :=
  ⟨partial_inv, _, rfl, by decide +kernel⟩
theorem test_witness_ResetHoldsTheEmptyFrame : ResetState (withInputs [.command 0x20010001]) :=
  ⟨rfl, rfl, rfl, rfl⟩
theorem test_witness_EveryStepKeepsTheFrame : Holds [1] { pushed [1] with inputs := [.command 0x20100000] } ∧
    ∃ t, step { pushed [1] with inputs := [.command 0x20100000] } = .next t :=
  ⟨one_holds, _, rfl⟩
/-- A frame of more than 32 bits and one of a single bit. -/
theorem test_witness_AccumulatorIsTheWeightedSum : Holds golden.toList (pushed goldenBits) ∧ Holds [1] (pushed [1]) ∧
    (31 < 32 ∧ 31 < golden.toList.length ∧ [(1 : Bit)].length ≤ 1) :=
  ⟨golden_holds, one_holds, by decide⟩
/-- A failed read between two pushes; the message begins with the bits pushed. -/
theorem test_witness_CodedBitsDoNotDependOnLaterBits :
    (∀ w ∈ [0x20010001#32, 0x30000000, 0x20010001], w ≠ 0x10000000) ∧
    [0x20010001#32, 0x30000000, 0x20010001].foldl frameAfterWord [] <+: golden.toList ∧
    (3 : Fin 162).val < 2 * ([0x20010001#32, 0x30000000, 0x20010001].foldl frameAfterWord []).length := by
  rw [show [0x20010001#32, 0x30000000, 0x20010001].foldl frameAfterWord [] = [1, 1] by decide +kernel]
  exact ⟨by simp, by decide +kernel, by decide⟩
/-- The pushes of P2, with a failed read between them. -/
theorem test_witness_FrameIsCorrectFromAnyState :
    (∀ w ∈ [0x2010F70C#32, 0x2010238B, 0x30000000, 0x20100D19, 0x20104000, 0x20100000, 0x20010000], w ≠ 0x10000000) ∧
    [0x2010F70C#32, 0x2010238B, 0x30000000, 0x20100D19, 0x20104000, 0x20100000, 0x20010000].foldl frameAfterWord [] =
      golden.toList := ⟨by simp, by decide +kernel⟩
/-- A PUSH on the complete frame, which overflows. -/
theorem test_witness_CompleteFrameStaysReadable :
    Holds golden.toList { pushed goldenBits with inputs := [.command 0x20010001] } ∧ (0x20010001#32) ≠ 0x10000000 :=
  ⟨golden_holds, by decide⟩
theorem test_witness_ResetLeavesTheResetState : (withInputs [.reset]).inputs = .reset :: [] := rfl
theorem test_witness_ResetDuringACommandLeavesTheResetState :
    (withInputs [.resetDuring 0x20010001]).inputs = .resetDuring 0x20010001 :: [] := rfl

end Sys2Proof.Tests
end

/-! SUPPORT. What an event of the host can do to the block, said once, and what the bits a PUSH consumes do to each
register and buffer (10_state.md section 2). The statements about the state rest on these. -/

namespace Sys2Proof

/-- A word is its opcode followed by its other 28 bits (30_encoding.md R60). -/
theorem opcodeField_append (w : Word) : opcodeField w ++ w.extractLsb' 0 28 = w :=
  BitVec.extractLsb'_append_extractLsb' (w := 4) (len := 28)

/-- The only word of CLEAR is 0x10000000 (30_encoding.md R61, R66). -/
theorem decode_eq_clear_iff {w : Word} : decode w = .command .clear ↔ w = 0x10000000#32 := by
  constructor
  · intro h
    unfold decode decodeN decodeP decodeI at h
    repeat' split at h
    case h_2 opcode low =>
      have opcode : opcodeField w = 1#4 := BitVec.eq_of_toNat_eq opcode
      calc w = opcodeField w ++ w.extractLsb' 0 28 := (opcodeField_append w).symm
        _ = 0x10000000#32 := by rw [opcode, low]; rfl
    all_goals simp_all
  · rintro rfl
    decide

namespace Machine

/-- The ways an event of the host can end, each with the guard that leads to it: a command word that fails, one that
answers and changes no architectural state, CLEAR, a PUSH that fits (41_commands.md R100), or a reset
(70_reset_and_hazards.md R170, R172). -/
inductive EventOutcome : HostEvent → State → State → Prop where
  | fails {w : Word} {s : State} (code : Status) (error : code ≠ .ok) (notClear : decode w ≠ .command .clear)
      (noFit : ∀ n d, decode w = .command (.push n d) → ¬ s.nin.toNat + n.toNat ≤ 81) :
      EventOutcome (.command w) s (failed s code.code)
  | answers {w : Word} {s : State} (data : Word) (notClear : decode w ≠ .command .clear)
      (notPush : ∀ n d, decode w ≠ .command (.push n d)) : EventOutcome (.command w) s (answered s 0x00#8 data)
  | clears {w : Word} {s : State} (word : decode w = .command .clear) :
      EventOutcome (.command w) s (s.clear.respond .ok 0)
  | pushes {w : Word} {s : State} (n : BitVec 5) (d : BitVec 16)
      (word : decode w = .command (.push n d)) (fits : s.nin.toNat + n.toNat ≤ 81) :
      EventOutcome (.command w) s
        ((s.pushBits (pushBitsOf n d)).respond .ok ((s.nin + BitVec.ofNat 7 n.toNat).setWidth 32))
  | resets {e : HostEvent} {s t : State} (reset : e = .reset ∨ ∃ w, e = .resetDuring w) (eq : ResetState t) :
      EventOutcome e s t

section outcome
variable {s t : State} {e : HostEvent} {w : Word}

theorem resetState_clear (s : State) : ResetState s.clear := ⟨rfl, rfl, rfl, rfl⟩

/-- A reset leaves the reset state also when a command is outstanding (R172). -/
theorem resetState_of_runResetDuring (h : runResetDuring w s = .next t) : ResetState t := by
  obtain ⟨u, hu, -⟩ := runWord_outcome w s
  rw [runResetDuring_eq hu] at h
  cases h
  exact resetState_clear s

/-- The way a command ends is the way its word ends. -/
theorem CommandOutcome.event {i : Instr} (word : decode w = .command i) (h : CommandOutcome i s t) :
    EventOutcome (.command w) s t := by
  cases h with
  | failed code error notClear notNop noFit eq =>
    subst eq
    refine .fails code error (by simp [word, notClear]) fun n d hw => ?_
    have hi : i = .push n d := Verdict.command.inj (word.symm.trans hw)
    exact noFit n d hi (decode_push hw)
  | answered data instr eq =>
    subst eq
    refine .answers data ?_ ?_
    · rw [word]; rintro ⟨⟩; simp [isRead] at instr
    · intro n d; rw [word]; rintro ⟨⟩; simp [isRead] at instr
  | cleared instr eq =>
    subst instr eq
    exact .clears word
  | pushed n d instr legal fits eq =>
    subst instr eq
    exact .pushes n d word fits

/-- The way a command word that answers a next state ended. -/
theorem runWord_next (h : runWord w s = .next t) : EventOutcome (.command w) s t := by
  obtain ⟨u, hu, hout⟩ := runWord_outcome w s
  rw [h] at hu
  cases hu
  obtain ⟨i, word, hout⟩ | ⟨illegal, rfl⟩ := hout
  · exact hout.event word
  · exact .fails .illegalField (by decide) (by simp [illegal]) (by simp [illegal])

/-- The way an event of the host ended. -/
theorem runEvent_next (h : runEvent e s = .next t) : EventOutcome e s t := by
  cases e with
  | command w => exact runWord_next h
  | reset =>
    cases h
    exact .resets (.inl rfl) (resetState_clear s)
  | resetDuring w => exact .resets (.inr ⟨w, rfl⟩) (resetState_of_runResetDuring h)

/-- The way a step ended, when the host's next event is `e`. -/
theorem step_next {rest : List HostEvent} (inputs : s.inputs = e :: rest) (h : step s = .next t) :
    EventOutcome e { s with inputs := rest } t :=
  runEvent_next (step_cons inputs ▸ h)

end outcome

section push
variable {s : State} {bs : List Bit}

/-- `NIN` does not wrap while the bits fit (10_state.md R23, R31). -/
theorem pushBits_nin_toNat (fits : s.nin.toNat + bs.length ≤ 81) :
    (s.pushBits bs).nin.toNat = s.nin.toNat + bs.length := by
  rw [pushBits_nin, BitVec.toNat_add, BitVec.toNat_ofNat]
  omega

/-- The coded buffer after one bit: its two coded bits at `2 × NIN` and `2 × NIN + 1` (R24). -/
theorem pushBit_cb_get (s : State) (b : Bit) (i : Fin 162) : (s.pushBit b).cb.get i =
    if 2 * s.nin.toNat + 1 = i.val then some (encstep s.acc b).2.2
    else if 2 * s.nin.toNat = i.val then some (encstep s.acc b).2.1 else s.cb.get i := by
  rw [pushBit_cb, writeCode_get, writeCode_get]

/-- The coded buffer after bits that fit: their coded bits from `2 × NIN` on, and nothing else (R24, R103). -/
theorem pushBits_cb_get (fits : s.nin.toNat + bs.length ≤ 81) (i : Fin 162) : (s.pushBits bs).cb.get i =
    if 2 * s.nin.toNat ≤ i.val ∧ i.val < 2 * (s.nin.toNat + bs.length)
    then (convFrom s.acc bs)[i.val - 2 * s.nin.toNat]? else s.cb.get i := by
  induction bs generalizing s with
  | nil => rw [if_neg (by simp)]; rfl
  | cons b bs ih =>
    rw [List.length_cons] at fits
    have nin : (s.pushBit b).nin.toNat = s.nin.toNat + 1 := pushBits_nin_toNat (bs := [b]) (by simp; omega)
    rw [pushBits_cons, ih (by omega), nin, pushBit_cb_get, convFrom, pushBit_acc, encstep_acc, List.length_cons]
    -- The first two entries from `2 × NIN` on are those of `b`; the later ones are those of `bs`.
    rcases Nat.lt_or_ge i.val (2 * s.nin.toNat + 2) with here | later
    · grind
    · obtain ⟨k, hk⟩ := Nat.exists_eq_add_of_le later
      rw [hk, show 2 * s.nin.toNat + 2 + k - 2 * s.nin.toNat = k + 2 by omega,
        show 2 * s.nin.toNat + 2 + k - 2 * (s.nin.toNat + 1) = k by omega]
      grind

/-- Bits that fit, put on a state of the invariant, keep it: the entries they write are the next ones (R23, R24). -/
theorem StateInv.pushBits (before : StateInv s) (fits : s.nin.toNat + bs.length ≤ 81) : StateInv (s.pushBits bs) := by
  obtain ⟨-, written, lasterr⟩ := before
  refine ⟨by rw [pushBits_nin_toNat fits]; exact fits, fun i => ?_, by simpa using lasterr⟩
  rw [pushBits_cb_get fits, pushBits_nin_toNat fits]
  split
  · simp only [isSome_getElem?, convFrom_length]
    omega
  · rw [written]
    omega

/-- Bits that fit are added to the frame the state holds (R21, R24, 41_commands.md R103). -/
theorem Holds.pushBits {m : List Bit} (holds : Holds m s) (fits : m.length + bs.length ≤ 81) :
    Holds (m ++ bs) (s.pushBits bs) := by
  obtain ⟨-, nin, acc, cb⟩ := holds
  rw [← nin] at fits
  refine ⟨by simp; omega, by rw [pushBits_nin_toNat fits, nin, List.length_append], by simp [acc, accFrom_append],
    fun i => ?_⟩
  rw [pushBits_cb_get fits, cb, convBits, convBits, convFrom_append, List.getElem?_append, convFrom_length, nin, acc]
  split
  · rw [if_neg (by omega)]
  · split
    · rfl
    · rw [List.getElem?_eq_none (by rw [convFrom_length]; omega),
        List.getElem?_eq_none (by rw [convFrom_length]; omega)]

end push

/-! ### The invariant (10_state.md R23, R24, R26) -/

/-- Settles O46: the empty buffer has no entry below `2 × 0`. -/
theorem resetMeetsTheInvariant : Obligations.ResetMeetsTheInvariant := by
  rintro s ⟨-, nin, cb, lasterr⟩
  refine ⟨by simp [nin, State.reset], fun i => ?_, by simp [lasterr, State.reset]⟩
  simp [nin, cb, State.reset, Vector.get_eq_getElem]

/-- Every event of the host keeps the invariant, whichever way it ends. -/
theorem EventOutcome.stateInv {e : HostEvent} {s t : State} (h : EventOutcome e s t) (before : StateInv s) :
    StateInv t := by
  cases h with
  | fails code =>
    obtain ⟨bound, written, -⟩ := before
    exact ⟨bound, written, code_le code⟩
  | answers => exact before
  | clears => exact resetMeetsTheInvariant _ (resetState_clear s)
  | pushes n d word fits => exact before.pushBits (by rwa [pushBitsOf_length])
  | resets _ eq => exact resetMeetsTheInvariant t eq

/-- Settles O47: a step that waits changes nothing, and one that runs an event ends in one of its outcomes. -/
theorem everyStepKeepsTheInvariant : Obligations.EveryStepKeepsTheInvariant := by
  intro s t before h
  cases inputs : s.inputs with
  | nil =>
    rw [step_nil inputs] at h
    cases h
    exact before
  | cons e rest => exact (step_next inputs h).stateInv before

/-! ### The frame (10_state.md R21, R24, 41_commands.md R110, R111) -/

/-- A word that is neither CLEAR nor a PUSH that fits leaves the bits of the frame (R110). -/
theorem frameAfterWord_eq_self {m : List Bit} {w : Word} (notClear : decode w ≠ .command .clear)
    (noFit : ∀ n d, decode w = .command (.push n d) → ¬ m.length + n.toNat ≤ 81) : frameAfterWord m w = m := by
  unfold frameAfterWord
  split
  · contradiction
  · exact if_neg (noFit _ _ ‹_›)
  · rfl

theorem frameAfterWord_clear {m : List Bit} {w : Word} (word : decode w = .command .clear) :
    frameAfterWord m w = [] := by
  simp [frameAfterWord, word]

theorem frameAfterWord_push {m : List Bit} {w : Word} {n : BitVec 5} {d : BitVec 16}
    (word : decode w = .command (.push n d)) (fits : m.length + n.toNat ≤ 81) :
    frameAfterWord m w = m ++ pushBitsOf n d := by
  simp [frameAfterWord, word, fits]

theorem frameAfterEvent_reset {m : List Bit} {e : HostEvent} (reset : e = .reset ∨ ∃ w, e = .resetDuring w) :
    frameAfterEvent m e = [] := by
  obtain rfl | ⟨w, rfl⟩ := reset <;> rfl

/-- Settles O50: no bit has been consumed, and no entry is written. -/
theorem resetHoldsTheEmptyFrame : Obligations.ResetHoldsTheEmptyFrame := by
  rintro s ⟨acc, nin, cb, -⟩
  refine ⟨by simp, by simp [nin, State.reset], acc, fun i => ?_⟩
  simp [cb, State.reset, Vector.get_eq_getElem, convBits, convFrom]

/-- Every event of the host leaves the frame that it makes of the bits before, whichever way it ends. -/
theorem EventOutcome.holds {e : HostEvent} {s t : State} {m : List Bit} (h : EventOutcome e s t) (holds : Holds m s) :
    Holds (frameAfterEvent m e) t := by
  have ⟨_, nin, _, _⟩ := holds
  cases h with
  | fails code error notClear noFit =>
    rw [frameAfterEvent, frameAfterWord_eq_self notClear (nin ▸ noFit)]
    exact holds
  | answers data notClear notPush =>
    rw [frameAfterEvent, frameAfterWord_eq_self notClear fun n d word => absurd word (notPush n d)]
    exact holds
  | clears word =>
    rw [frameAfterEvent, frameAfterWord_clear word]
    exact resetHoldsTheEmptyFrame _ (resetState_clear s)
  | pushes n d word fits =>
    rw [nin] at fits
    rw [frameAfterEvent, frameAfterWord_push word fits]
    exact holds.pushBits (by rwa [pushBitsOf_length])
  | resets reset eq =>
    rw [frameAfterEvent_reset reset]
    exact resetHoldsTheEmptyFrame t eq

/-- Settles O51, from the ways a step can end. -/
theorem everyStepKeepsTheFrame : Obligations.EveryStepKeepsTheFrame :=
  fun _ _ _ _ _ holds inputs h => (step_next inputs h).holds holds

/-! ### The registers (10_state.md R22, R25, R26, R31) -/

/-- What a command word does to `LASTERR`, beside the response it gives (R26). -/
theorem EventOutcome.lasterr {w : Word} {s t : State} (h : EventOutcome (.command w) s t) :
    ∃ r : Response, t.responses = s.responses ++ [r] ∧
      t.lasterr = if r.status ≠ 0x00#8 then r.status else if w = 0x10000000#32 then 0x00#8 else s.lasterr := by
  cases h with
  | fails code error => exact ⟨⟨code.code, 0⟩, rfl, by simp [failed, error]⟩
  | answers data notClear =>
    have : w ≠ 0x10000000#32 := fun hw => notClear (decode_eq_clear_iff.mpr hw)
    exact ⟨⟨0, data⟩, rfl, by simp [answered, this]⟩
  | clears word => exact ⟨⟨0, 0⟩, rfl, by simp [decode_eq_clear_iff.mp word]⟩
  | pushes n d word =>
    have : w ≠ 0x10000000#32 := fun hw => by simp [decode_eq_clear_iff.mpr hw] at word
    exact ⟨_, by rw [respond_responses, pushBits_responses], by simp [this]⟩
  | resets reset => simp at reset

/-- Settles O45: a failure writes its code, CLEAR and reset write 0, and the other outcomes leave it. -/
theorem lasterrHoldsTheLatestFailure : Obligations.LasterrHoldsTheLatestFailure := by
  refine ⟨fun s t w rest inputs h => (step_next inputs h).lasterr, fun s t rest inputs h => ?_⟩
  cases step_next inputs h with
  | resets _ eq =>
    obtain ⟨-, -, -, lasterr⟩ := eq
    exact lasterr

/-- Settles O49: failures and answers leave `NIN`, and a PUSH that fits raises it without a wrap. -/
theorem onlyClearAndResetLowerTheCounter : Obligations.OnlyClearAndResetLowerTheCounter := by
  intro s t e rest _ inputs h lower
  cases step_next inputs h with
  | fails => exact absurd lower (Nat.lt_irrefl _)
  | answers => exact absurd lower (Nat.lt_irrefl _)
  | clears word => exact ⟨.inl (by rw [decode_eq_clear_iff.mp word]), rfl⟩
  | pushes n d word fits =>
    rw [respond_nin, pushBits_nin_toNat (by rwa [pushBitsOf_length])] at lower
    exact absurd lower (Nat.not_lt.mpr (Nat.le_add_right _ _))
  | resets reset eq =>
    obtain ⟨-, nin, -, -⟩ := eq
    exact ⟨.inr reset, nin⟩

/-- Settles O48: the 162 entries are those below `2 × 81`. -/
theorem doneMeansEveryEntryIsWritten : Obligations.DoneMeansEveryEntryIsWritten := by
  intro s
  have done_iff : s.done = true ↔ s.nin.toNat = 81 := by simp [State.done, BitVec.toNat_eq]
  refine ⟨done_iff, fun ⟨_, written, _⟩ done i => Option.isSome_iff_exists.mp ((written i).mpr ?_)⟩
  rw [done_iff.mp done]
  exact i.isLt

/-- Settles O34: both reads look at the entry before they answer. -/
theorem unwrittenEntryIsNeverAnswered : Obligations.UnwrittenEntryIsNeverAnswered := by
  intro s x h
  constructor
  · intro unwritten
    have unreadable : s.readableCode ⟨x.toNat, h⟩ = none := by simp [State.readableCode, unwritten]
    simp only [exec, execReadcode, indexOf_of_lt h, unreadable]
    rfl
  · intro unwritten
    simp only [exec, execReadsym, indexOf_of_lt h, unwritten, ite_self]
    rfl

/-! ### The accumulator (10_state.md R21, R22) -/

/-- The bits of the accumulator: the latest input bits, the last at position 0, and above them the bits it held before,
shifted up (R21). -/
theorem accFrom_getLsbD (acc : Word) (m : List Bit) {k : Nat} (hk : k < 32) : (accFrom acc m).getLsbD k =
    if k < m.length then (m.getD (m.length - 1 - k) 0).getLsbD 0 else acc.getLsbD (k - m.length) := by
  induction m using List.reverseRecOn generalizing k with
  | nil => simp
  | append_singleton m b ih =>
    rw [accFrom_append, accFrom_cons, accFrom_nil, shiftIn_getLsbD]
    cases k with
    | zero => simp
    | succ k =>
      rw [if_neg (by omega), Nat.add_sub_cancel, ih (by omega)]
      simp only [hk, decide_true, Bool.true_and, List.length_append, List.length_singleton, Nat.add_lt_add_iff_right,
        Nat.add_sub_cancel, Nat.add_sub_add_right]
      split
      · rw [List.getD_append _ _ _ _ (by omega), show m.length - (k + 1) = m.length - 1 - k by omega]
      · rfl

/-- A shift doubles the accumulator and adds the bit, modulo 2^32 (40_core_functions.md R82). -/
theorem shiftIn_toNat (acc : Word) (b : Bit) : (shiftIn acc b).toNat = (2 * acc.toNat + b.toNat) % 2 ^ 32 := by
  have or_eq_add : shiftIn acc b = (acc <<< 1) + b.setWidth 32 := by
    refine (BitVec.add_eq_or_of_and_eq_zero _ _ ?_).symm
    ext k hk
    cases k <;> simp
  rw [or_eq_add, BitVec.toNat_add, BitVec.toNat_shiftLeft, BitVec.toNat_setWidth]
  have := b.isLt
  omega

/-- One more bit doubles the weights of the bits before it. -/
theorem weightedSum_append_singleton (m : List Bit) (b : Bit) :
    weightedSum (m ++ [b]) = 2 * weightedSum m + b.toNat := by
  unfold weightedSum
  rw [List.length_append, List.length_singleton, Finset.sum_range_succ, Finset.mul_sum]
  congr 1
  · refine Finset.sum_congr rfl fun k hk => ?_
    rw [Finset.mem_range] at hk
    rw [List.getD_append _ _ _ _ hk, show m.length + 1 - 1 - k = m.length - 1 - k + 1 by omega, Nat.pow_succ]
    ring
  · simp

/-- The accumulator of a frame is the weighted sum of its bits modulo 2^32 (R22). -/
theorem accFrom_toNat (m : List Bit) : (accFrom 0 m).toNat = weightedSum m % 2 ^ 32 := by
  induction m using List.reverseRecOn with
  | nil => rfl
  | append_singleton m b ih =>
    rw [accFrom_append, accFrom_cons, accFrom_nil, shiftIn_toNat, ih, weightedSum_append_singleton]
    omega

/-- Settles O52, by induction on the consumed bits, the latest bit last. -/
theorem accumulatorIsTheWeightedSum : Obligations.AccumulatorIsTheWeightedSum := by
  rintro m s ⟨-, -, acc, -⟩
  rw [acc]
  refine ⟨accFrom_toNat m, fun k hk consumed => ?_, fun k hk above => ?_⟩
  · rw [accFrom_getLsbD 0 m hk, if_pos consumed]
  · rw [accFrom_getLsbD 0 m hk, if_neg (Nat.not_lt.mpr above)]
    simp

end Machine
end Sys2Proof

/-! SUPPORT. What a read depends on and how wide its data is (20_memory.md R48, R50), the effect of a command word as a
function of the architectural state (R51), and the order of bits (R43, R44). -/

namespace Sys2Proof.Machine

/-! ### The order of bits (20_memory.md R43, R44) -/

/-- The two coded bits of input bit `k` read the accumulator that has taken in the bits up to `k` (R44, R83). -/
theorem convFrom_getElem? (acc : Word) (m : List Bit) {k : Nat} (hk : k < m.length) :
    (convFrom acc m)[2 * k]? = some (parity (accFrom acc (m.take (k + 1)) &&& POLY0)) ∧
    (convFrom acc m)[2 * k + 1]? = some (parity (accFrom acc (m.take (k + 1)) &&& POLY1)) := by
  induction m generalizing acc k with
  | nil => simp at hk
  | cons b m ih =>
    cases k with
    | zero => simp [convFrom]
    | succ k => simpa [convFrom, Nat.mul_add] using ih (shiftIn acc b) (Nat.lt_of_succ_lt_succ hk)

theorem conv_getElem? (m : Message) (i : Nat) : (conv m)[i]? = (convBits m.toList)[i]? := by
  simp [conv]

/-- Settles O13: the message starts from an accumulator of 0. -/
theorem codedBitsComeInPairsPerInputBit : Obligations.CodedBitsComeInPairsPerInputBit := by
  intro m k hk
  obtain ⟨even, odd⟩ := convFrom_getElem? 0 m.toList (k := k) (by simpa using hk)
  rw [← convBits, ← conv_getElem?, Vector.getElem?_eq_some_iff] at even odd
  obtain ⟨_, even⟩ := even
  obtain ⟨_, odd⟩ := odd
  exact ⟨even, odd⟩

/-- The bit a PUSH consumes at place `t` is `d[n-1-t]` (R43). -/
theorem pushBitsOf_getElem? (n : BitVec 5) (d : BitVec 16) {t : Nat} (ht : t < n.toNat) :
    (pushBitsOf n d)[t]? = some (d.extractLsb' (n.toNat - 1 - t) 1) := by
  simp [pushBitsOf, ht]

/-- A data field takes in its bits as the accumulator does, in 16 bits instead of 32 (R43, R82). -/
theorem dataOfBits_eq_accFrom (bs : List Bit) : dataOfBits bs = (accFrom 0 bs).setWidth 16 := by
  induction bs using List.reverseRecOn with
  | nil => rfl
  | append_singleton bs b ih =>
    have step : dataOfBits (bs ++ [b]) = (dataOfBits bs <<< 1) ||| b.setWidth 16 := List.foldl_append
    rw [step, ih, accFrom_append, accFrom_cons, accFrom_nil, shiftIn]
    ext k hk
    simp

/-- In a data field the last bit it was built from stands at position 0 and the earlier ones above it (R43, R74). -/
theorem dataOfBits_getLsbD {bs : List Bit} {k : Nat} (hk : k < bs.length) (fits : k < 16) :
    (dataOfBits bs).getLsbD k = (bs.getD (bs.length - 1 - k) 0).getLsbD 0 := by
  rw [dataOfBits_eq_accFrom, BitVec.getLsbD_setWidth, accFrom_getLsbD 0 bs (by omega), if_pos hk]
  simp [fits]

/-- Settles O30: the bit of place `t` stands at position `n-1-t` of the field that was built from them. -/
theorem pushTakesMostSignificantBitFirst : Obligations.PushTakesMostSignificantBitFirst := by
  refine ⟨fun n d => ⟨pushBitsOf_length n d, fun t => pushBitsOf_getElem? n d⟩, fun n bs fits length => ?_⟩
  refine List.ext_getElem? fun t => ?_
  rcases Nat.lt_or_ge t n.toNat with ht | ht
  · have mirror : bs.length - 1 - (n.toNat - 1 - t) = t := by omega
    rw [pushBitsOf_getElem? n _ ht, List.getElem?_eq_getElem (length ▸ ht), ← List.getD_eq_getElem bs 0]
    congr 1
    ext k hk
    obtain rfl : k = 0 := by omega
    rw [BitVec.getElem_extractLsb', Nat.add_zero, dataOfBits_getLsbD (by omega) (by omega), mirror]
    rfl
  · rw [List.getElem?_eq_none (by simpa using ht), List.getElem?_eq_none (by omega)]

/-! ### Reads (20_memory.md R48, R50) -/

/-- The width of the element that a read answers with (R48): a coded bit, a symbol, an entry of `PERM` or `SYNC`, the
used part of STATUS, `ACC`; commands that read no element have the 32 bits of any response. -/
def readWidth : Instr → Nat
  | .readcode _ | .readsync _ => 1
  | .readsym _ => 2
  | .readperm _ => 8
  | .readstat => 16
  | .readacc | .nop | .clear | .push _ _ | .reserved9 _ | .reservedAB _ | .reservedCF _ => 32

/-- The two ways a read of `s` can end, each with what decides it: a failure does not look at `LASTERR` or `ACC`, and an
answer looks at the architectural state only (R50, R104 to R109). -/
inductive ReadOutcome (i : Instr) (s : State) : Prop where
  | fails (e : Status) (error : e ≠ .ok) (run : ∀ u : State, s.nin = u.nin → s.cb = u.cb → exec i u = fail e u)
  | answers (data : Word) (width : data.toNat < 2 ^ readWidth i) (run : ∀ u, SameArch s u → exec i u = succeed data u)

theorem toNat_setWidth_lt {v : Nat} (x : BitVec v) (n : Nat) : (x.setWidth n).toNat < 2 ^ v := by
  rw [BitVec.toNat_setWidth]
  exact (Nat.mod_le _ _).trans_lt x.isLt

/-- The upper half of STATUS is 0 (R27). -/
theorem statusWord_toNat_lt (s : State) : (statusWord s).toNat < 2 ^ 16 := by
  have lasterr := s.lasterr.isLt
  have nin := s.nin.isLt
  simp only [statusWord, BitVec.toNat_or]
  refine Nat.or_lt_two_pow (Nat.or_lt_two_pow ?_ ?_) ?_
  · simp; omega
  · split <;> decide
  · simp; omega

/-- Every read ends in one of the two ways. -/
theorem read_outcome {i : Instr} (read : isRead i = true) (s : State) : ReadOutcome i s := by
  cases i with
  | readsym x =>
    cases index : indexOf x with
    | none => exact .fails .range (by decide) fun u _ _ => by simp only [exec, execReadsym, index]
    | some j =>
      by_cases short : s.nin.toNat < Config.ninfo
      · refine .fails .notReady (by decide) fun u nin _ => ?_
        rw [nin] at short
        simp only [exec, execReadsym, index, if_pos short]
      · cases entry : s.cb.get (inv j) with
        | none =>
          refine .fails .notReady (by decide) fun u nin cb => ?_
          rw [cb] at entry
          simp only [exec, execReadsym, index, entry, ite_self]
        | some b =>
          refine .answers _ (toNat_setWidth_lt (composeBit b (Config.sync j)) 32) fun u ⟨_, nin, cb, _⟩ => ?_
          rw [nin] at short
          rw [cb] at entry
          simp only [exec, execReadsym, index, entry, if_neg short]
  | readcode x =>
    cases index : indexOf x with
    | none => exact .fails .range (by decide) fun u _ _ => by simp only [exec, execReadcode, index]
    | some j =>
      have readable {u : State} (nin : s.nin = u.nin) (cb : s.cb = u.cb) : u.readableCode j = s.readableCode j := by
        rw [State.readableCode, State.readableCode, nin, cb]
      cases entry : s.readableCode j with
      | none =>
        refine .fails .notReady (by decide) fun u nin cb => ?_
        simp only [exec, execReadcode, index, readable nin cb, entry]
      | some b =>
        refine .answers _ (toNat_setWidth_lt b 32) fun u ⟨_, nin, cb, _⟩ => ?_
        simp only [exec, execReadcode, index, readable nin cb, entry]
  | readstat =>
    refine .answers _ (statusWord_toNat_lt s) fun u ⟨_, nin, _, lasterr⟩ => ?_
    rw [exec, execReadstat, statusWord, statusWord, State.done, State.done, nin, lasterr]
  | readacc => exact .answers s.acc s.acc.isLt fun u ⟨acc, _, _, _⟩ => by rw [acc]; rfl
  | readperm x =>
    cases index : indexOf x with
    | none => exact .fails .range (by decide) fun u _ _ => by simp only [exec, execReadperm, index]
    | some j =>
      have width : (BitVec.ofNat 32 (perm j).val).toNat < 2 ^ 8 := by
        have := (perm j).isLt
        simp; omega
      exact .answers _ width fun u _ => by simp only [exec, execReadperm, index]
  | readsync x =>
    cases index : indexOf x with
    | none => exact .fails .range (by decide) fun u _ _ => by simp only [exec, execReadsync, index]
    | some j =>
      exact .answers _ (toNat_setWidth_lt (Config.sync j) 32) fun u _ => by simp only [exec, execReadsync, index]
  | nop | clear | push | reserved9 | reservedAB | reservedCF => cases read

/-- Settles O40: the first read leaves what decides the way it ends as it was. -/
theorem readsAreIdempotent : Obligations.ReadsAreIdempotent := by
  intro i s t read h
  cases read_outcome read s with
  | fails e error run =>
    rw [run s rfl rfl] at h
    cases h
    exact ⟨⟨e.code, 0⟩, _, rfl, rfl, rfl, rfl, fun ok => absurd ((code_eq_zero e).mp ok) error, run _ rfl rfl, rfl⟩
  | answers data _ run =>
    rw [run s ⟨rfl, rfl, rfl, rfl⟩] at h
    cases h
    exact ⟨⟨0, data⟩, _, rfl, rfl, rfl, rfl, fun _ => rfl, run _ ⟨rfl, rfl, rfl, rfl⟩, rfl⟩

/-- The response of a command is what it appended to the responses before it. -/
theorem response_eq {s t : State} {r : Response} (e : Status) (data : Word)
    (kept : t.responses = s.responses) (response : (t.respond e data).responses = s.responses ++ [r]) :
    r = ⟨e.code, data⟩ := by
  simpa [kept, eq_comm] using response

/-- The data of a read is 0 above the width of the element it reads; a failing read answers 0. -/
theorem read_data_lt {i : Instr} {s t : State} {r : Response} (read : isRead i = true) (h : exec i s = .next t)
    (response : t.responses = s.responses ++ [r]) : r.data.toNat < 2 ^ readWidth i := by
  cases read_outcome read s with
  | fails e _ run =>
    cases (run s rfl rfl).symm.trans h
    rw [response_eq e 0 (t := s.setLasterr e) rfl response]
    exact Nat.two_pow_pos _
  | answers data width run =>
    cases (run s ⟨rfl, rfl, rfl, rfl⟩).symm.trans h
    rwa [response_eq .ok data rfl response]

/-- The data of a PUSH is the bit counter, or 0 when it fails. -/
theorem push_data_lt {n : BitVec 5} {d : BitVec 16} {s t : State} {r : Response} (h : exec (.push n d) s = .next t)
    (response : t.responses = s.responses ++ [r]) : r.data.toNat < 2 ^ 7 := by
  cases exec_next h with
  | failed e _ _ _ _ eq =>
    subst eq
    rw [response_eq e 0 (t := s.setLasterr e) rfl response]
    exact Nat.two_pow_pos _
  | answered data instr => simp [isRead] at instr
  | cleared instr => cases instr
  | pushed n d _ _ _ eq =>
    subst eq
    rw [response_eq .ok _ (pushBits_responses s _) response]
    exact toNat_setWidth_lt _ _

/-- Settles O41: the first five clauses are the widths of reads, the last is that of `NIN`. -/
theorem readDataIsZeroExtended : Obligations.ReadDataIsZeroExtended := by
  intro i s t r _ h response
  have width (read : isRead i = true) := read_data_lt read h response
  refine ⟨?_, ?_, ?_, ?_, ?_, ?_⟩
  · rintro x rfl; exact width rfl
  · rintro x rfl; exact width rfl
  · rintro x rfl; exact width rfl
  · rintro x rfl; exact width rfl
  · rintro rfl; exact width rfl
  · rintro n d rfl; exact push_data_lt h response

/-! ### The effect of a command word (20_memory.md R51) -/

/-- Two states hold the same channels: the host's next events, the responses so far and the free values drawn. -/
def SameChannels (s t : State) : Prop := s.inputs = t.inputs ∧ s.responses = t.responses ∧ s.draws = t.draws

/-- Two results, one from `s` and one from `s'`, are the same effect: the same response is added to the channels of
each, and the architectural states are the same. -/
def SameEffect (s s' : State) (x x' : Result) : Prop :=
  ∃ (t t' : State) (e : Status) (data : Word), x = .next (t.respond e data) ∧ x' = .next (t'.respond e data) ∧
    SameArch t t' ∧ SameChannels s t ∧ SameChannels s' t'

section effect
variable {s s' : State}

theorem sameChannels_pushBits (s : State) (bs : List Bit) : SameChannels s (s.pushBits bs) := by
  simp [SameChannels]

theorem SameArch.pushBits (same : SameArch s s') (bs : List Bit) : SameArch (s.pushBits bs) (s'.pushBits bs) := by
  induction bs generalizing s s' with
  | nil => exact same
  | cons b bs ih =>
    obtain ⟨acc, nin, cb, lasterr⟩ := same
    exact ih ⟨by simp [acc], by simp [nin], by simp [acc, nin, cb], lasterr⟩

theorem SameArch.fail_effect (same : SameArch s s') (e : Status) : SameEffect s s' (fail e s) (fail e s') := by
  obtain ⟨acc, nin, cb, -⟩ := same
  exact ⟨s.setLasterr e, s'.setLasterr e, e, 0, rfl, rfl, ⟨acc, nin, cb, rfl⟩, ⟨rfl, rfl, rfl⟩, ⟨rfl, rfl, rfl⟩⟩

theorem SameArch.succeed_effect (same : SameArch s s') (data : Word) :
    SameEffect s s' (succeed data s) (succeed data s') :=
  ⟨s, s', .ok, data, rfl, rfl, same, ⟨rfl, rfl, rfl⟩, ⟨rfl, rfl, rfl⟩⟩

theorem SameArch.read_effect {i : Instr} (same : SameArch s s') (read : isRead i = true) :
    SameEffect s s' (exec i s) (exec i s') := by
  cases read_outcome read s with
  | fails e _ run =>
    have ⟨_, nin, cb, _⟩ := same
    rw [run s rfl rfl, run s' nin cb]
    exact same.fail_effect e
  | answers data _ run =>
    rw [run s ⟨rfl, rfl, rfl, rfl⟩, run s' same]
    exact same.succeed_effect data

theorem SameArch.push_effect (same : SameArch s s') (n : BitVec 5) (d : BitVec 16) :
    SameEffect s s' (exec (.push n d) s) (exec (.push n d) s') := by
  have ⟨_, nin, _, _⟩ := same
  have ⟨_, nin', _, _⟩ := same.pushBits (pushBitsOf n d)
  simp only [exec, execPush, ← nin, ← nin']
  split
  · split
    · exact same.fail_effect .overflow
    · exact ⟨_, _, .ok, _, rfl, rfl, same.pushBits _, sameChannels_pushBits s _, sameChannels_pushBits s' _⟩
  · exact same.fail_effect .illegalField

/-- A command has the same effect on states that hold the same architectural state (R20, R51). -/
theorem SameArch.exec_effect (same : SameArch s s') (i : Instr) : SameEffect s s' (exec i s) (exec i s') := by
  cases i with
  | nop => exact same.succeed_effect 0
  | clear =>
    exact ⟨s.clear, s'.clear, .ok, 0, rfl, rfl, ⟨rfl, rfl, rfl, rfl⟩, ⟨rfl, rfl, rfl⟩, ⟨rfl, rfl, rfl⟩⟩
  | push n d => exact same.push_effect n d
  | readsym | readcode | readstat | readacc | readperm | readsync => exact same.read_effect rfl
  | reserved9 | reservedAB | reservedCF => exact same.fail_effect .illegalOpcode

/-- A command word has the same effect on states that hold the same architectural state (R51, 60_exceptions.md R150). -/
theorem SameArch.runWord_effect (same : SameArch s s') (w : Word) : SameEffect s s' (runWord w s) (runWord w s') := by
  cases word : decode w with
  | command i =>
    rw [runWord_command word, runWord_command word]
    exact same.exec_effect i
  | illegal e =>
    rw [runWord_illegal word, runWord_illegal word]
    exact same.fail_effect e

end effect

/-- Settles O26: taking the word from the host's events leaves the architectural state. -/
theorem commandDependsOnArchitecturalStateOnly : Obligations.CommandDependsOnArchitecturalStateOnly := by
  intro s s' t w rest rest' same inputs inputs' h
  have same : SameArch { s with inputs := rest } { s' with inputs := rest' } := same
  obtain ⟨u, u', e, data, run, run', arch, ⟨-, responses, -⟩, ⟨-, responses', -⟩⟩ := same.runWord_effect w
  rw [step_cons inputs] at h
  rw [step_cons inputs']
  cases run.symm.trans h
  exact ⟨_, ⟨e.code, data⟩, run', arch, by simp [← responses], by simp [← responses']⟩

/-- Issuing words changes no architectural state. -/
theorem sameArch_issue (s : State) (ws : List Word) : SameArch s (s.issue ws) := ⟨rfl, rfl, rfl, rfl⟩

/-- A word runs the same when other words stand behind it, and answers once (R51). -/
theorem runWord_issue (w : Word) (ws : List Word) (s : State) : ∃ (t : State) (r : Response),
    runWord w s = .next t ∧ runWord w (s.issue ws) = .next (t.issue ws) ∧
    t.inputs = s.inputs ∧ t.responses = s.responses ++ [r] := by
  obtain ⟨t, t', e, data, run, run', ⟨acc, nin, cb, lasterr⟩, ⟨inputs, responses, draws⟩,
    ⟨inputs', responses', draws'⟩⟩ := (sameArch_issue s ws).runWord_effect w
  refine ⟨t.respond e data, ⟨e.code, data⟩, run, run'.trans (congrArg _ ?_), inputs.symm, by simp [responses]⟩
  exact State.ext_fields acc.symm nin.symm cb.symm lasterr.symm (by simp [← inputs', State.issue, inputs])
    (by simp [← responses', State.issue, responses]) (by simp [← draws', State.issue, draws])

theorem core_run_succ {M : Host.Core} {k : Nat} {s t : M.State} (h : M.step s = .next t) :
    M.run (k + 1) s = M.run k t := by
  simp [Host.Core.run, h]

theorem runWords_cons {w : Word} {ws : List Word} {s t : State} (h : runWord w (s.issue ws) = .next (t.issue ws)) :
    runWords (w :: ws) s = runWords ws t := by
  have first : step (s.issue (w :: ws)) = .next (t.issue ws) := by
    rw [step_cons (rest := (s.issue ws).inputs) rfl]
    exact h
  exact core_run_succ first

theorem foldWords_cons {w : Word} {s t : State} (h : runWord w s = .next t) (ws : List Word) :
    foldWords (w :: ws) s = foldWords ws t := by
  simp [foldWords, h]

/-- Settles O25, by induction on the words. -/
theorem runningWordsIsTheLeftFold : Obligations.RunningWordsIsTheLeftFold := by
  intro ws
  induction ws with
  | nil => exact fun s => ⟨s, rfl, rfl, rfl, [], rfl, by simp⟩
  | cons w ws ih =>
    intro s
    obtain ⟨t, r, word, issued, inputs, response⟩ := runWord_issue w ws s
    obtain ⟨u, run, fold, inputs', rs, length, responses⟩ := ih t
    exact ⟨u, (runWords_cons issued).trans run, (foldWords_cons word ws).trans fold, inputs'.trans inputs,
      r :: rs, by simp [length], by simp [responses, response]⟩

end Sys2Proof.Machine

/-! SUPPORT. The three formats of 30_encoding.md section 1 as words, the opcodes that use each of them, and the decoder
and the encoder said once per format. The statements about the encoding rest on these. -/

namespace Sys2Proof

/-! ### The formats (30_encoding.md R61, R62, R63) -/

/-- A word of format N: its opcode and 28 zero bits (R61). -/
def wordN (op : BitVec 4) : Word := op ++ 0#28

/-- A word of format P: its opcode, 7 zero bits, the bit count and the data (R62). -/
def wordP (op : BitVec 4) (n : BitVec 5) (d : BitVec 16) : Word := op ++ 0#7 ++ n ++ d

/-- A word of format I: its opcode, 20 zero bits and the index (R63). -/
def wordI (op : BitVec 4) (x : Byte) : Word := op ++ 0#20 ++ x

section fields
variable (op : BitVec 4) (n : BitVec 5) (d : BitVec 16) (x : Byte)

@[simp] theorem opcodeField_wordN : opcodeField (wordN op) = op := BitVec.extractLsb'_append_eq_left

@[simp] theorem reserved_wordN : (wordN op).extractLsb' 0 28 = 0 := BitVec.extractLsb'_append_eq_right

@[simp] theorem opcodeField_wordP : opcodeField (wordP op n d) = op :=
  calc (wordP op n d).extractLsb' 28 4
      = (op ++ 0#7 ++ n).extractLsb' 12 4 := BitVec.extractLsb'_append_eq_of_le (by decide)
    _ = (op ++ 0#7).extractLsb' 7 4 := BitVec.extractLsb'_append_eq_of_le (by decide)
    _ = op := BitVec.extractLsb'_append_eq_left

@[simp] theorem reserved_wordP : (wordP op n d).extractLsb' 21 7 = 0 :=
  calc (wordP op n d).extractLsb' 21 7
      = (op ++ 0#7 ++ n).extractLsb' 5 7 := BitVec.extractLsb'_append_eq_of_le (by decide)
    _ = (op ++ 0#7).extractLsb' 0 7 := BitVec.extractLsb'_append_eq_of_le (by decide)
    _ = 0 := BitVec.extractLsb'_append_eq_right

@[simp] theorem count_wordP : (wordP op n d).extractLsb' 16 5 = n :=
  calc (wordP op n d).extractLsb' 16 5
      = (op ++ 0#7 ++ n).extractLsb' 0 5 := BitVec.extractLsb'_append_eq_of_le (by decide)
    _ = n := BitVec.extractLsb'_append_eq_right

@[simp] theorem data_wordP : (wordP op n d).extractLsb' 0 16 = d := BitVec.extractLsb'_append_eq_right

@[simp] theorem opcodeField_wordI : opcodeField (wordI op x) = op :=
  calc (wordI op x).extractLsb' 28 4
      = (op ++ 0#20).extractLsb' 20 4 := BitVec.extractLsb'_append_eq_of_le (by decide)
    _ = op := BitVec.extractLsb'_append_eq_left

@[simp] theorem reserved_wordI : (wordI op x).extractLsb' 8 20 = 0 :=
  calc (wordI op x).extractLsb' 8 20
      = (op ++ 0#20).extractLsb' 0 20 := BitVec.extractLsb'_append_eq_of_le (by decide)
    _ = 0 := BitVec.extractLsb'_append_eq_right

@[simp] theorem index_wordI : (wordI op x).extractLsb' 0 8 = x := BitVec.extractLsb'_append_eq_right

end fields

section words
variable {w : Word}

theorem wordN_of_reserved_zero (zero : w.extractLsb' 0 28 = 0) : wordN (opcodeField w) = w := by
  conv_rhs => rw [← opcodeField_append w, zero]
  rfl

theorem wordI_of_reserved_zero (zero : w.extractLsb' 8 20 = 0) : wordI (opcodeField w) (w.extractLsb' 0 8) = w := by
  calc wordI (opcodeField w) (w.extractLsb' 0 8)
      = opcodeField w ++ w.extractLsb' 8 20 ++ w.extractLsb' 0 8 := by rw [zero]; rfl
    _ = w.extractLsb' 8 24 ++ w.extractLsb' 0 8 :=
      congrArg (· ++ w.extractLsb' 0 8) (BitVec.extractLsb'_append_extractLsb'_eq_extractLsb' rfl)
    _ = w := BitVec.extractLsb'_append_extractLsb' (w := 24)

theorem wordP_of_reserved_zero (zero : w.extractLsb' 21 7 = 0) :
    wordP (opcodeField w) (w.extractLsb' 16 5) (w.extractLsb' 0 16) = w := by
  calc wordP (opcodeField w) (w.extractLsb' 16 5) (w.extractLsb' 0 16)
      = opcodeField w ++ w.extractLsb' 21 7 ++ w.extractLsb' 16 5 ++ w.extractLsb' 0 16 := by rw [zero]; rfl
    _ = w.extractLsb' 21 11 ++ w.extractLsb' 16 5 ++ w.extractLsb' 0 16 :=
      congrArg (· ++ w.extractLsb' 16 5 ++ w.extractLsb' 0 16)
        (BitVec.extractLsb'_append_extractLsb'_eq_extractLsb' rfl)
    _ = w.extractLsb' 16 16 ++ w.extractLsb' 0 16 :=
      congrArg (· ++ w.extractLsb' 0 16) (BitVec.extractLsb'_append_extractLsb'_eq_extractLsb' rfl)
    _ = w := BitVec.extractLsb'_append_extractLsb' (w := 16)

end words

/-- The parts of a word are ORed into their places. -/
theorem append_eq_or {u v : Nat} (high : BitVec u) (low : BitVec v) :
    high ++ low = (high.setWidth (u + v) <<< v) ||| low.setWidth (u + v) :=
  (BitVec.setWidth_eq _).symm.trans BitVec.setWidth_append_eq_shiftLeft_setWidth_or

theorem wordI_eq_or (op : BitVec 4) (x : Byte) : wordI op x = ((op ++ 0#20).setWidth 32 <<< 8) ||| x.setWidth 32 :=
  append_eq_or (op ++ 0#20) x

theorem wordP_eq_or (op : BitVec 4) (n : BitVec 5) (d : BitVec 16) :
    wordP op n d = ((op ++ 0#7).setWidth 32 <<< 21) ||| (n.setWidth 32 <<< 16) ||| d.setWidth 32 :=
  (BitVec.setWidth_eq _).symm.trans BitVec.setWidth_append_append_eq_shiftLeft_setWidth_or

/-! ### The opcodes of each format (R64) -/

/-- The opcodes of format N, each with its command (R61). -/
def opcodesN : List (BitVec 4 × Instr) := [(0x0, .nop), (0x1, .clear), (0x5, .readstat), (0x6, .readacc)]

/-- The opcodes of format I, each with the command of an index (R63). -/
def opcodesI : List (BitVec 4 × (Byte → Instr)) :=
  [(0x3, .readsym), (0x4, .readcode), (0x7, .readperm), (0x8, .readsync)]

theorem mem_opcodesN_iff {op : BitVec 4} {i : Instr} : (op, i) ∈ opcodesN ↔
    op = 0x0#4 ∧ i = .nop ∨ op = 0x1#4 ∧ i = .clear ∨ op = 0x5#4 ∧ i = .readstat ∨ op = 0x6#4 ∧ i = .readacc := by
  simp [opcodesN]

theorem mem_opcodesI_iff {op : BitVec 4} {command : Byte → Instr} : (op, command) ∈ opcodesI ↔
    op = 0x3#4 ∧ command = .readsym ∨ op = 0x4#4 ∧ command = .readcode ∨
    op = 0x7#4 ∧ command = .readperm ∨ op = 0x8#4 ∧ command = .readsync := by
  simp [opcodesI]

/-- An opcode that stands in a list of rows has a row there. -/
theorem exists_row {α : Type} {rows : List (BitVec 4 × α)} {op : BitVec 4} (h : op ∈ rows.map Prod.fst) :
    ∃ a, (op, a) ∈ rows := by
  obtain ⟨⟨_, a⟩, row, rfl⟩ := List.mem_map.mp h
  exact ⟨a, row⟩

theorem mem_fst_opcodesI : ∀ op : BitVec 4, op.toNat ∈ [0x3, 0x4, 0x7, 0x8] → op ∈ opcodesI.map Prod.fst := by decide

/-- Every opcode is one of format N, that of PUSH, one of format I or a reserved one (R64, R65). -/
inductive OpcodeFormat (op : BitVec 4) : Prop where
  | n (i : Instr) (row : (op, i) ∈ opcodesN)
  | p (push : op = 0x2#4)
  | i (command : Byte → Instr) (row : (op, command) ∈ opcodesI)
  | reserved (above : 9 ≤ op.toNat)

theorem opcodeFormat (op : BitVec 4) : OpcodeFormat op := by
  have formats : ∀ op : BitVec 4,
      op ∈ opcodesN.map Prod.fst ∨ op = 0x2#4 ∨ op ∈ opcodesI.map Prod.fst ∨ 9 ≤ op.toNat := by decide
  obtain n | p | i | above := formats op
  · obtain ⟨i, row⟩ := exists_row n
    exact .n i row
  · exact .p p
  · obtain ⟨command, row⟩ := exists_row i
    exact .i command row
  · exact .reserved above

section rows
variable {op : BitVec 4} {i : Instr} {command : Byte → Instr}

theorem encode_opcodesN (row : (op, i) ∈ opcodesN) : encode i = wordN op := by
  obtain ⟨rfl, rfl⟩ | ⟨rfl, rfl⟩ | ⟨rfl, rfl⟩ | ⟨rfl, rfl⟩ := mem_opcodesN_iff.mp row <;> decide

theorem wellFormed_opcodesN (row : (op, i) ∈ opcodesN) : i.wellFormed = true := by
  obtain ⟨-, rfl⟩ | ⟨-, rfl⟩ | ⟨-, rfl⟩ | ⟨-, rfl⟩ := mem_opcodesN_iff.mp row <;> rfl

theorem encode_opcodesI (row : (op, command) ∈ opcodesI) (x : Byte) : encode (command x) = wordI op x := by
  rw [wordI_eq_or]
  obtain ⟨rfl, rfl⟩ | ⟨rfl, rfl⟩ | ⟨rfl, rfl⟩ | ⟨rfl, rfl⟩ := mem_opcodesI_iff.mp row <;> rfl

theorem wellFormed_opcodesI (row : (op, command) ∈ opcodesI) (x : Byte) : (command x).wellFormed = true := by
  obtain ⟨-, rfl⟩ | ⟨-, rfl⟩ | ⟨-, rfl⟩ | ⟨-, rfl⟩ := mem_opcodesI_iff.mp row <;> rfl

theorem encode_push (n : BitVec 5) (d : BitVec 16) : encode (.push n d) = wordP 0x2 n d :=
  (wordP_eq_or 0x2 n d).symm

theorem decode_opcodesN {w : Word} (row : (opcodeField w, i) ∈ opcodesN) : decode w = decodeN w i := by
  obtain ⟨op, rfl⟩ | ⟨op, rfl⟩ | ⟨op, rfl⟩ | ⟨op, rfl⟩ := mem_opcodesN_iff.mp row <;> simp [decode, op]

theorem decode_opcodesI {w : Word} (row : (opcodeField w, command) ∈ opcodesI) : decode w = decodeI w command := by
  obtain ⟨op, rfl⟩ | ⟨op, rfl⟩ | ⟨op, rfl⟩ | ⟨op, rfl⟩ := mem_opcodesI_iff.mp row <;> simp [decode, op]

theorem decode_opcode_push {w : Word} (op : opcodeField w = 0x2#4) : decode w = decodeP w := by simp [decode, op]

end rows

/-! ### The words of the reserved opcodes (R65) -/

section reserved
variable {w : Word}

theorem decode_reserved9 (op : opcodeField w = 0x9#4) : decode w = .command (.reserved9 (w.extractLsb' 0 28)) := by
  simp [decode, op]

/-- The upper bits of a word's opcode are its own upper bits. -/
theorem opcodeField_extractLsb' (w : Word) {k len : Nat} (h : k + len = 4) :
    (opcodeField w).extractLsb' k len = w.extractLsb' (28 + k) len := by
  ext j hj
  simp [opcodeField, show k + j < 4 by omega, Nat.add_assoc]

theorem decode_reservedAB (top : w.extractLsb' 29 3 = 0b101#3) :
    decode w = .command (.reservedAB (w.extractLsb' 0 29)) := by
  have opcodes : ∀ op : BitVec 4, op.extractLsb' 1 3 = 0b101#3 → op = 0xA#4 ∨ op = 0xB#4 := by decide
  obtain op | op := opcodes _ ((opcodeField_extractLsb' w rfl).trans top) <;> simp [decode, op]

theorem decode_reservedCF (top : w.extractLsb' 30 2 = 0b11#2) :
    decode w = .command (.reservedCF (w.extractLsb' 0 30)) := by
  have opcodes : ∀ op : BitVec 4, op.extractLsb' 2 2 = 0b11#2 →
      op = 0xC#4 ∨ op = 0xD#4 ∨ op = 0xE#4 ∨ op = 0xF#4 := by decide
  obtain op | op | op | op := opcodes _ ((opcodeField_extractLsb' w rfl).trans top) <;> simp [decode, op]

theorem encode_reserved9 (rest : BitVec 28) : encode (.reserved9 rest) = 0x9#4 ++ rest :=
  (append_eq_or 0x9#4 rest).symm

theorem encode_reservedAB (rest : BitVec 29) : encode (.reservedAB rest) = 0b101#3 ++ rest :=
  (append_eq_or 0b101#3 rest).symm

theorem encode_reservedCF (rest : BitVec 30) : encode (.reservedCF rest) = 0b11#2 ++ rest :=
  (append_eq_or 0b11#2 rest).symm

end reserved

/-- The commands of the reserved opcodes. -/
def isReserved : Instr → Bool
  | .reserved9 _ | .reservedAB _ | .reservedCF _ => true
  | .nop | .clear | .push _ _ | .readsym _ | .readcode _ | .readstat | .readacc | .readperm _ | .readsync _ => false

theorem wellFormed_of_isReserved {i : Instr} (h : isReserved i = true) : i.wellFormed = true := by
  cases i with
  | reserved9 | reservedAB | reservedCF => rfl
  | nop | clear | push | readsym | readcode | readstat | readacc | readperm | readsync => cases h

/-- A word of a reserved opcode is the word of a reserved command, whatever its other bits hold (R65). -/
theorem decode_of_reserved {w : Word} (above : 9 ≤ (opcodeField w).toNat) :
    ∃ i, decode w = .command i ∧ encode i = w ∧ isReserved i = true := by
  have opcodes : ∀ op : BitVec 4, 9 ≤ op.toNat →
      op = 0x9#4 ∨ op.extractLsb' 1 3 = 0b101#3 ∨ op.extractLsb' 2 2 = 0b11#2 := by decide
  obtain op | top | top := opcodes _ above
  · have word := opcodeField_append w
    rw [op] at word
    exact ⟨_, decode_reserved9 op, (encode_reserved9 _).trans word, rfl⟩
  · rw [opcodeField_extractLsb' w rfl] at top
    have word := BitVec.extractLsb'_append_extractLsb' (w := 3) (len := 29) (x := w)
    rw [top] at word
    exact ⟨_, decode_reservedAB top, (encode_reservedAB _).trans word, rfl⟩
  · rw [opcodeField_extractLsb' w rfl] at top
    have word := BitVec.extractLsb'_append_extractLsb' (w := 2) (len := 30) (x := w)
    rw [top] at word
    exact ⟨_, decode_reservedCF top, (encode_reservedCF _).trans word, rfl⟩

/-! ### The decoder and the encoder are inverse to each other (R72) -/

section verdicts
variable {w : Word} {i j : Instr} {command : Byte → Instr}

theorem decodeN_eq_command (h : decodeN w i = .command j) : wordN (opcodeField w) = w ∧ i = j := by
  unfold decodeN at h
  split at h
  · exact ⟨wordN_of_reserved_zero ‹_›, Verdict.command.inj h⟩
  · cases h

theorem decodeI_eq_command (h : decodeI w command = .command j) : ∃ x, wordI (opcodeField w) x = w ∧ command x = j := by
  unfold decodeI at h
  split at h
  · exact ⟨_, wordI_of_reserved_zero ‹_›, Verdict.command.inj h⟩
  · cases h

theorem decodeP_eq_command (h : decodeP w = .command j) :
    ∃ n d, wordP (opcodeField w) n d = w ∧ .push n d = j ∧ pushCountLegal n = true := by
  unfold decodeP at h
  split at h
  · split at h
    · exact ⟨_, _, wordP_of_reserved_zero ‹_›, Verdict.command.inj h, ‹_›⟩
    · cases h
  · cases h

end verdicts

theorem decode_encode_opcodesI {op : BitVec 4} {command : Byte → Instr} (row : (op, command) ∈ opcodesI) (x : Byte) :
    decode (encode (command x)) = .command (command x) := by
  rw [encode_opcodesI row, decode_opcodesI (by rwa [opcodeField_wordI])]
  simp [decodeI]

theorem decode_encode_push {n : BitVec 5} (legal : pushCountLegal n = true) (d : BitVec 16) :
    decode (encode (.push n d)) = .command (.push n d) := by
  rw [encode_push, decode_opcode_push (opcodeField_wordP 0x2 n d)]
  simp [decodeP, legal]

/-- Settles O1: each row of the opcode map has one way to write its commands. -/
theorem decodeOfEncodeIsTheCommand : Obligations.DecodeOfEncodeIsTheCommand := by
  intro i wellFormed
  cases i with
  | nop | clear | readstat | readacc => decide
  | push n d => exact decode_encode_push wellFormed d
  | readsym x => exact decode_encode_opcodesI (op := 0x3) (by simp [opcodesI]) x
  | readcode x => exact decode_encode_opcodesI (op := 0x4) (by simp [opcodesI]) x
  | readperm x => exact decode_encode_opcodesI (op := 0x7) (by simp [opcodesI]) x
  | readsync x => exact decode_encode_opcodesI (op := 0x8) (by simp [opcodesI]) x
  | reserved9 rest =>
    have low : (0x9#4 ++ rest : Word).extractLsb' 0 28 = rest := BitVec.extractLsb'_append_eq_right
    rw [encode_reserved9, decode_reserved9 BitVec.extractLsb'_append_eq_left, low]
  | reservedAB rest =>
    have low : (0b101#3 ++ rest : Word).extractLsb' 0 29 = rest := BitVec.extractLsb'_append_eq_right
    rw [encode_reservedAB, decode_reservedAB BitVec.extractLsb'_append_eq_left, low]
  | reservedCF rest =>
    have low : (0b11#2 ++ rest : Word).extractLsb' 0 30 = rest := BitVec.extractLsb'_append_eq_right
    rw [encode_reservedCF, decode_reservedCF BitVec.extractLsb'_append_eq_left, low]

/-- Settles O2, format by format: what a word must hold to be accepted is what its command's word holds. -/
theorem decodedCommandHasOnlyItsWord : Obligations.DecodedCommandHasOnlyItsWord := by
  intro w i h
  cases opcodeFormat (opcodeField w) with
  | n j row =>
    rw [decode_opcodesN row] at h
    obtain ⟨word, rfl⟩ := decodeN_eq_command h
    exact ⟨wellFormed_opcodesN row, (encode_opcodesN row).trans word⟩
  | p op =>
    rw [decode_opcode_push op] at h
    obtain ⟨n, d, word, rfl, legal⟩ := decodeP_eq_command h
    rw [op] at word
    exact ⟨legal, (encode_push n d).trans word⟩
  | i command row =>
    rw [decode_opcodesI row] at h
    obtain ⟨x, word, rfl⟩ := decodeI_eq_command h
    exact ⟨wellFormed_opcodesI row x, (encode_opcodesI row x).trans word⟩
  | reserved above =>
    obtain ⟨j, word, encoded, reserved⟩ := decode_of_reserved above
    obtain rfl : j = i := Verdict.command.inj (word.symm.trans h)
    exact ⟨wellFormed_of_isReserved reserved, encoded⟩

/-- A word decodes to a command exactly when it is the word of that command (R72). -/
theorem decode_eq_command_iff {w : Word} {i : Instr} :
    decode w = .command i ↔ i.wellFormed = true ∧ encode i = w := by
  refine ⟨decodedCommandHasOnlyItsWord w i, ?_⟩
  rintro ⟨wellFormed, rfl⟩
  exact decodeOfEncodeIsTheCommand i wellFormed

/-! ### The opcode map (R64) -/

/-- The word of every command lies in the command's row. -/
theorem encode_in_row (i : Instr) : i.row.selects (encode i) = true := by
  cases i with
  | nop => exact Laws.EncodedInRow.nop
  | clear => exact Laws.EncodedInRow.clear
  | push n d => exact Laws.EncodedInRow.push n d
  | readsym x => exact Laws.EncodedInRow.readsym x
  | readcode x => exact Laws.EncodedInRow.readcode x
  | readstat => exact Laws.EncodedInRow.readstat
  | readacc => exact Laws.EncodedInRow.readacc
  | readperm x => exact Laws.EncodedInRow.readperm x
  | readsync x => exact Laws.EncodedInRow.readsync x
  | reserved9 rest => exact Laws.EncodedInRow.reserved9 rest
  | reservedAB rest => exact Laws.EncodedInRow.reservedAB rest
  | reservedCF rest => exact Laws.EncodedInRow.reservedCF rest

theorem row_mem_opcodeMap (i : Instr) : i.row ∈ opcodeMap := by
  cases i <;> simp [opcodeMap, Instr.row]

/-- Rows that select the same word agree on the bits that both of them look at. -/
theorem OpcodeRow.agree {r r' : OpcodeRow} {w : Word} (h : r.selects w = true) (h' : r'.selects w = true) :
    r.pattern &&& r'.mask = r'.pattern &&& r.mask := by
  rw [OpcodeRow.selects, beq_iff_eq] at h h'
  rw [← h, ← h', BitVec.and_assoc, BitVec.and_assoc, BitVec.and_comm r.mask]

/-- No word is selected by two rows of the map. -/
theorem row_unique {r r' : OpcodeRow} {w : Word} (mem : r ∈ opcodeMap) (mem' : r' ∈ opcodeMap)
    (h : r.selects w = true) (h' : r'.selects w = true) : r = r' := by
  have apart : ∀ r ∈ opcodeMap, ∀ r' ∈ opcodeMap, r.pattern &&& r'.mask = r'.pattern &&& r.mask → r = r' := by decide
  exact apart r mem r' mem' (OpcodeRow.agree h h')

section illegal
open Machine
variable {w : Word}

theorem illegalInFields_opcodesN {i : Instr} (row : (opcodeField w, i) ∈ opcodesN) :
    illegalInFields w ↔ w.extractLsb' 0 28 ≠ 0 := by
  obtain ⟨op, -⟩ | ⟨op, -⟩ | ⟨op, -⟩ | ⟨op, -⟩ := mem_opcodesN_iff.mp row <;> simp [illegalInFields, op]

theorem illegalInFields_opcodesI {command : Byte → Instr} (row : (opcodeField w, command) ∈ opcodesI) :
    illegalInFields w ↔ w.extractLsb' 8 20 ≠ 0 := by
  obtain ⟨op, -⟩ | ⟨op, -⟩ | ⟨op, -⟩ | ⟨op, -⟩ := mem_opcodesI_iff.mp row <;> simp [illegalInFields, op]

theorem pushCountLegal_eq_false {n : BitVec 5} : pushCountLegal n = false ↔ n.toNat < 1 ∨ 16 < n.toNat := by
  simp [pushCountLegal, Config.pushMax]
  omega

theorem illegalInFields_push (op : opcodeField w = 0x2#4) :
    illegalInFields w ↔ w.extractLsb' 21 7 ≠ 0 ∨ pushCountLegal (w.extractLsb' 16 5) = false := by
  rw [pushCountLegal_eq_false]
  simp [illegalInFields, op]

theorem not_illegalInFields_of_reserved (above : 9 ≤ (opcodeField w).toNat) : ¬ illegalInFields w := by
  simp [illegalInFields]
  omega

/-- The decoder rejects exactly the words that are illegal in their fields (R66, R67). -/
theorem decode_eq_illegal_iff : decode w = .illegal .illegalField ↔ illegalInFields w := by
  cases opcodeFormat (opcodeField w) with
  | n i row => rw [decode_opcodesN row, illegalInFields_opcodesN row]; simp [decodeN]
  | p op =>
    rw [decode_opcode_push op, illegalInFields_push op]
    simp [decodeP, imp_iff_not_or]
  | i command row => rw [decode_opcodesI row, illegalInFields_opcodesI row]; simp [decodeI]
  | reserved above =>
    obtain ⟨i, word, -⟩ := decode_of_reserved above
    simp [word, not_illegalInFields_of_reserved above]

end illegal

/-- Settles O3: a word that is legal in its fields is the word of a command, which lies in that command's row, and no
other row selects it. -/
theorem decodeFollowsTheOpcodeMap : Obligations.DecodeFollowsTheOpcodeMap := by
  intro w
  have in_row (i : Instr) (h : decode w = .command i) : i.row.selects w = true := by
    obtain ⟨-, rfl⟩ := decode_eq_command_iff.mp h
    exact encode_in_row i
  refine ⟨in_row, fun r mem selected legal => ?_, fun r mem r' mem' => row_unique mem mem', decode_eq_illegal_iff⟩
  cases h : decode w with
  | command i => exact ⟨i, rfl, row_unique (row_mem_opcodeMap i) mem (in_row i h) selected⟩
  | illegal e =>
    obtain rfl := decode_illegal h
    exact absurd (decode_eq_illegal_iff.mp h) legal

/-- Settles O9, word by word. -/
theorem decodeOfWordsWrittenFromTheFormats : Obligations.DecodeOfWordsWrittenFromTheFormats := by
  unfold Obligations.DecodeOfWordsWrittenFromTheFormats
  decide

end Sys2Proof

/-! SUPPORT. What the words of each format do when they are executed (30_encoding.md R65 to R69). -/

namespace Sys2Proof.Machine

/-- Settles O39: each of them is the one failure. -/
theorem reservedCommandsRaiseIllegalOpcode : Obligations.ReservedCommandsRaiseIllegalOpcode :=
  ⟨fun _ _ => rfl, fun _ _ => rfl, fun _ _ => rfl⟩

theorem exec_of_isReserved {i : Instr} (h : isReserved i = true) (s : State) : exec i s = .next (failed s 0x01#8) := by
  obtain ⟨nine, ab, cf⟩ := reservedCommandsRaiseIllegalOpcode
  cases i with
  | reserved9 rest => exact nine s rest
  | reservedAB rest => exact ab s rest
  | reservedCF rest => exact cf s rest
  | nop | clear | push | readsym | readcode | readstat | readacc | readperm | readsync => cases h

/-- Settles O4: the word of a reserved opcode is the word of a reserved command. -/
theorem reservedOpcodeWordsRaiseIllegalOpcode : Obligations.ReservedOpcodeWordsRaiseIllegalOpcode := by
  intro s w rest inputs above
  obtain ⟨i, word, -, reserved⟩ := decode_of_reserved above
  rw [step_cons inputs, runEvent, runWord_command word, exec_of_isReserved reserved]

/-- A word that is illegal in its fields raises ILLEGAL_FIELD in every state (R66, R67). -/
theorem runWord_of_illegalInFields {w : Word} (h : illegalInFields w) (s : State) :
    runWord w s = .next (failed s 0x02#8) :=
  runWord_illegal (decode_eq_illegal_iff.mpr h) s

/-- Settles O5: a set reserved bit is one of the ways to be illegal in the fields, and NOP has one word only. -/
theorem reservedFieldWordsRaiseIllegalField : Obligations.ReservedFieldWordsRaiseIllegalField := by
  refine ⟨fun s w rest inputs reserved => ?_, fun w => ?_⟩
  · rw [step_cons inputs]
    refine runWord_of_illegalInFields ?_ _
    obtain n | ⟨op, bits⟩ | i := reserved
    · exact .inl n
    · exact .inr (.inl ⟨op, .inl bits⟩)
    · exact .inr (.inr i)
  · rw [decode_eq_command_iff]
    exact ⟨fun ⟨_, word⟩ => word.symm, fun word => ⟨rfl, word.symm⟩⟩

/-- A word of opcode 0x2 that is legal in its fields is a PUSH (R62, R67). -/
theorem decode_legal_push {w : Word} (op : opcodeField w = 0x2) (legal : ¬ illegalInFields w) :
    decode w = .command (.push (w.extractLsb' 16 5) (w.extractLsb' 0 16)) := by
  rw [illegalInFields_push op, not_or, not_not, Bool.not_eq_false] at legal
  obtain ⟨reserved, count⟩ := legal
  rw [decode_opcode_push op, decodeP, if_pos reserved, if_pos count]

/-- Settles O6: a count outside 1..16 is one of the ways to be illegal in the fields. -/
theorem pushCountIsLegalFromOneToSixteen : Obligations.PushCountIsLegalFromOneToSixteen := by
  intro s w op
  refine ⟨fun count => ?_, fun reserved low high => ?_⟩
  · exact runWord_of_illegalInFields (.inr (.inl ⟨op, .inr (by omega)⟩)) s
  · have op : opcodeField w = 0x2 := BitVec.eq_of_toNat_eq op
    refine decode_legal_push op fun illegal => ?_
    rw [illegalInFields_push op, pushCountLegal_eq_false] at illegal
    obtain bits | count := illegal
    · exact bits reserved
    · omega

/-- The bits a PUSH consumes are those below its count (R68). -/
theorem pushBitsOf_congr {n : BitVec 5} {d d' : BitVec 16}
    (same : ∀ k, k < n.toNat → d.getLsbD k = d'.getLsbD k) : pushBitsOf n d = pushBitsOf n d' := by
  refine List.map_congr_left fun t ht => ?_
  have ht : t < n.toNat := by simpa using ht
  ext k hk
  simp [show k = 0 by omega, same t ht]

theorem exec_push_congr {n : BitVec 5} {d d' : BitVec 16}
    (same : ∀ k, k < n.toNat → d.getLsbD k = d'.getLsbD k) (s : State) : exec (.push n d) s = exec (.push n d') s := by
  simp only [exec, execPush, pushBitsOf_congr same]

/-- Settles O7: the opcode, the reserved field and the count are the same, and so are the bits consumed. -/
theorem pushIgnoresDataAboveItsCount : Obligations.PushIgnoresDataAboveItsCount := by
  intro s w w' op same
  have upper {start len : Nat} (h : 16 ≤ start) : w'.extractLsb' start len = w.extractLsb' start len := by
    ext k hk
    simp [same (start + k) (.inr (by omega))]
  have op : opcodeField w = 0x2 := BitVec.eq_of_toNat_eq op
  have op' : opcodeField w' = 0x2 := (upper (by decide)).trans op
  have consumed (k : Nat) (hk : k < (w.extractLsb' 16 5).toNat) :
      (w.extractLsb' 0 16).getLsbD k = (w'.extractLsb' 0 16).getLsbD k := by
    simp [same k (.inl hk)]
  have illegal_iff : illegalInFields w' ↔ illegalInFields w := by
    rw [illegalInFields_push op, illegalInFields_push op', upper (start := 21) (by decide),
      upper (start := 16) (by decide)]
  by_cases illegal : illegalInFields w
  · rw [runWord_of_illegalInFields illegal, runWord_of_illegalInFields (illegal_iff.mpr illegal)]
  · rw [runWord_command (decode_legal_push op illegal),
      runWord_command (decode_legal_push op' (mt illegal_iff.mp illegal)), upper (start := 16) (by decide)]
    exact exec_push_congr consumed s

section index
variable {op : BitVec 4} {command : Byte → Instr} {x : Byte}

/-- An index from 162 raises RANGE in every state (R69). -/
theorem exec_index_of_ge (row : (op, command) ∈ opcodesI) (out : 162 ≤ x.toNat) (s : State) :
    exec (command x) s = .next (failed s 0x03#8) := by
  obtain ⟨-, rfl⟩ | ⟨-, rfl⟩ | ⟨-, rfl⟩ | ⟨-, rfl⟩ := mem_opcodesI_iff.mp row
  · simp only [exec, execReadsym, indexOf_of_ge out]; rfl
  · simp only [exec, execReadcode, indexOf_of_ge out]; rfl
  · simp only [exec, execReadperm, indexOf_of_ge out]; rfl
  · simp only [exec, execReadsync, indexOf_of_ge out]; rfl

/-- An index below 162 is answered, or refused because its bit is not there yet (R104, R105, R108, R109). -/
theorem exec_index_of_lt (row : (op, command) ∈ opcodesI) (inside : x.toNat < 162) (s : State) :
    exec (command x) s = fail .notReady s ∨ ∃ data, exec (command x) s = succeed data s := by
  obtain ⟨-, rfl⟩ | ⟨-, rfl⟩ | ⟨-, rfl⟩ | ⟨-, rfl⟩ := mem_opcodesI_iff.mp row
  · simp only [exec, execReadsym, indexOf_of_lt inside]
    split
    · exact .inl rfl
    · split
      · exact .inl rfl
      · exact .inr ⟨_, rfl⟩
  · simp only [exec, execReadcode, indexOf_of_lt inside]
    split
    · exact .inl rfl
    · exact .inr ⟨_, rfl⟩
  · simp only [exec, execReadperm, indexOf_of_lt inside]
    exact .inr ⟨_, rfl⟩
  · simp only [exec, execReadsync, indexOf_of_lt inside]
    exact .inr ⟨_, rfl⟩

end index

/-- Settles O8: the word of format I is the command of its index. -/
theorem indexAbove161RaisesRange : Obligations.IndexAbove161RaisesRange := by
  intro s w op reserved
  obtain ⟨command, row⟩ := exists_row (mem_fst_opcodesI _ op)
  have word : decode w = .command (command (w.extractLsb' 0 8)) := by
    rw [decode_opcodesI row, decodeI, if_pos reserved]
  rw [runWord_command word]
  refine ⟨fun out => exec_index_of_ge row out s, fun inside => ?_⟩
  obtain refused | ⟨data, answered⟩ := exec_index_of_lt row inside s
  · rw [refused, fail_eq, failed_eq]
    simp [failed, Status.code]
  · rw [answered]
    simp [succeed_eq, answered_eq, Machine.answered, failed]

end Sys2Proof.Machine

/-! SUPPORT. The words of `FRAME m` (30_encoding.md R74): what words of a frame leave in a state, piece by piece. -/

namespace Sys2Proof.Machine

/-- Words run one after another leave the frame that they make of the bits before (R51, R103). -/
theorem holds_of_foldWords {m : List Bit} {ws : List Word} {s t : State} (holds : Holds m s)
    (h : foldWords ws s = .next t) : Holds (ws.foldl frameAfterWord m) t := by
  induction ws generalizing m s with
  | nil =>
    cases h
    exact holds
  | cons w ws ih =>
    obtain ⟨u, run, -⟩ := runWord_outcome w s
    rw [foldWords_cons run] at h
    exact ih ((runWord_next run).holds holds) h

/-- After CLEAR, words leave the frame that they make of no bits, whatever the state before (R102, R110). -/
theorem holds_of_clear_first {ws : List Word} {s t : State} (h : foldWords (encode .clear :: ws) s = .next t) :
    Holds (ws.foldl frameAfterWord []) t := by
  have first : runWord (encode .clear) s = .next (s.clear.respond .ok 0) := runWord_command (i := .clear) (by decide) s
  rw [foldWords_cons first] at h
  exact holds_of_foldWords (resetHoldsTheEmptyFrame (s.clear.respond .ok 0) (resetState_clear s)) h

/-- The word of a PUSH built from message bits adds these bits to the frame (R43, R74). -/
theorem frameAfterWord_push_dataOfBits {m bs : List Bit} {n : BitVec 5} (count : n.toNat = bs.length)
    (some_bit : 1 ≤ bs.length) (short : bs.length ≤ 16) (fits : m.length + bs.length ≤ 81) :
    frameAfterWord m (encode (.push n (dataOfBits bs))) = m ++ bs := by
  have legal : pushCountLegal n = true := by
    simp [pushCountLegal, count, some_bit, short]
  obtain ⟨-, bits⟩ := pushTakesMostSignificantBitFirst
  rw [frameAfterWord_push (decode_encode_push legal _) (by omega), bits n bs (by omega) count.symm]

/-- The pushes of 16 bits in `FRAME m` add the first bits of the message, 16 at a time (R74). -/
theorem foldl_frameAfterWord_framePiece (m : Message) {k : Nat} (hk : k ≤ 5) :
    (((List.range k).map (framePiece m)).map encode).foldl frameAfterWord [] = m.toList.take (16 * k) := by
  induction k with
  | zero => rfl
  | succ k ih =>
    have length : ((m.toList.drop (16 * k)).take 16).length = 16 := by simp; omega
    rw [List.range_succ, List.map_append, List.map_append, List.foldl_append, ih (by omega), Nat.mul_succ, List.take_add]
    exact frameAfterWord_push_dataOfBits length.symm (by omega) (by omega) (by simp; omega)

/-- The pushes of `FRAME m` add the bits of the message. -/
theorem foldl_frameAfterWord_frameCommands (m : Message) :
    ((frameCommands m).tail.map encode).foldl frameAfterWord [] = m.toList := by
  have length : (m.toList.drop 80).length = 1 := by simp
  rw [frameCommands, List.tail_cons, List.map_append, List.foldl_append, foldl_frameAfterWord_framePiece m le_rfl]
  refine (frameAfterWord_push_dataOfBits (n := 1) length.symm (by omega) (by omega) (by simp)).trans ?_
  exact List.take_append_drop 80 m.toList

section complete
variable {m : Message} {s : State}

theorem Holds.done (h : Holds m.toList s) : s.done = true := by
  obtain ⟨-, nin, -, -⟩ := h
  obtain ⟨done_iff, -⟩ := doneMeansEveryEntryIsWritten s
  exact done_iff.mpr (by simpa using nin)

/-- The accumulator of a complete frame holds the last 32 bits of the message, the last at position 0 (R21). -/
theorem Holds.acc_extractLsb' (h : Holds m.toList s) {k : Nat} (hk : k < 32) : s.acc.extractLsb' k 1 = m[80 - k] := by
  obtain ⟨-, -, acc, -⟩ := h
  ext j hj
  obtain rfl : j = 0 := by omega
  rw [BitVec.getElem_extractLsb', Nat.add_zero, acc, accFrom_getLsbD 0 m.toList hk, if_pos (by simp; omega)]
  simp [Vector.getElem?_eq_getElem (xs := m) (i := 80 - k) (by omega)]

/-- The coded buffer of a complete frame holds the coded message (R24, R111). -/
theorem Holds.cb_get (h : Holds m.toList s) (i : Fin 162) : s.cb.get i = some ((conv m).get i) := by
  obtain ⟨-, -, -, cb⟩ := h
  rw [cb, ← conv_getElem?]
  exact Vector.getElem?_eq_getElem i.isLt

end complete

/-- Settles O55: CLEAR begins a new frame, and the six pushes add the 81 bits of the message to it. -/
theorem framePseudoInstructionEncodesTheMessage : Obligations.FramePseudoInstructionEncodesTheMessage := by
  intro s m
  obtain ⟨t, run, fold, -⟩ := runningWordsIsTheLeftFold ((frameCommands m).map encode) s
  have holds : Holds m.toList t := by
    have := holds_of_clear_first (ws := (frameCommands m).tail.map encode) fold
    rwa [foldl_frameAfterWord_frameCommands] at this
  exact ⟨t, run, holds.done, fun _ hk => holds.acc_extractLsb' hk, holds.cb_get⟩

end Sys2Proof.Machine

/-! SUPPORT. The assembler (30_encoding.md R73, R74): what each mnemonic gives, and how a line is cut into its mnemonic
and its operands. -/

namespace Sys2Proof.Machine

/-! ### The commands a mnemonic gives -/

/-- A command that the assembler may give: well-formed, and no data bit of a PUSH at or above its count (R73). -/
def Assembled (i : Instr) : Prop := i.wellFormed = true ∧ ∀ n d, i = .push n d → d.toNat < 2 ^ n.toNat

/-- An assembly that, where it is not a rejection, gives such commands only. -/
def GivesAssembled (assembly : Option (List Instr)) : Prop := ∀ is, assembly = some is → ∀ i ∈ is, Assembled i

theorem assembled_of_notPush {i : Instr} (wellFormed : i.wellFormed = true) (notPush : ∀ n d, i ≠ .push n d) :
    Assembled i :=
  ⟨wellFormed, fun n d h => absurd h (notPush n d)⟩

theorem GivesAssembled.reject : GivesAssembled none := nofun

theorem GivesAssembled.accept {is : List Instr} (h : ∀ i ∈ is, Assembled i) : GivesAssembled (some is) := by
  rintro _ ⟨⟩
  exact h

theorem GivesAssembled.ite {p : Prop} [Decidable p] {x y : Option (List Instr)} (hx : GivesAssembled x)
    (hy : GivesAssembled y) : GivesAssembled (if p then x else y) := by
  split
  · exact hx
  · exact hy

section forms
variable (ops : List Nat)

theorem assembleN_givesAssembled {i : Instr} (h : Assembled i) : GivesAssembled (assembleN i ops) := by
  unfold assembleN
  split
  · exact .accept (by simpa using h)
  · exact .reject

theorem assembleI_givesAssembled {command : Byte → Instr} (h : ∀ x, Assembled (command x)) :
    GivesAssembled (assembleI command ops) := by
  unfold assembleI
  split
  · exact .ite (.accept (by simpa using h _)) .reject
  · exact .reject

theorem assembled_push {n d : Nat} (low : 1 ≤ n) (high : n ≤ 16) (fits : d < 2 ^ n) :
    Assembled (.push (BitVec.ofNat 5 n) (BitVec.ofNat 16 d)) := by
  have count : (BitVec.ofNat 5 n).toNat = n := by
    rw [BitVec.toNat_ofNat]
    omega
  refine ⟨by simp [Instr.wellFormed, pushCountLegal, count, low, high], ?_⟩
  rintro _ _ ⟨⟩
  rw [count, BitVec.toNat_ofNat]
  exact (Nat.mod_le _ _).trans_lt fits

theorem assemblePush_givesAssembled : GivesAssembled (assemblePush ops) := by
  unfold assemblePush
  split
  · split
    next legal =>
      obtain ⟨low, high, fits⟩ := legal
      exact .accept (by simpa using assembled_push low high fits)
    · exact .reject
  · exact .reject

theorem assemblePushBit_givesAssembled : GivesAssembled (assemblePushBit ops) := by
  unfold assemblePushBit
  split
  · exact assemblePush_givesAssembled _
  · exact .reject

theorem assembleReadAll_givesAssembled : GivesAssembled (assembleReadAll ops) := by
  unfold assembleReadAll
  split
  · refine .accept fun i hi => ?_
    obtain ⟨x, -, rfl⟩ := List.mem_map.mp hi
    exact assembled_of_notPush rfl nofun
  · exact .reject

/-- Every mnemonic gives commands that the assembler may give, whatever its operands. -/
theorem assembleNamed_givesAssembled (name : List Char) : GivesAssembled (assembleNamed name ops) := by
  have form_n (i : Instr) (wellFormed : i.wellFormed = true) (notPush : ∀ n d, i ≠ .push n d) :=
    assembleN_givesAssembled ops (assembled_of_notPush wellFormed notPush)
  have form_i (command : Byte → Instr) (wellFormed : ∀ x, (command x).wellFormed = true)
      (notPush : ∀ x n d, command x ≠ .push n d) :=
    assembleI_givesAssembled ops fun x => assembled_of_notPush (wellFormed x) (notPush x)
  unfold assembleNamed
  exact .ite (form_n .nop rfl nofun) <| .ite (form_n .clear rfl nofun) <| .ite (assemblePush_givesAssembled ops) <|
    .ite (form_i .readsym (fun _ => rfl) nofun) <| .ite (form_i .readcode (fun _ => rfl) nofun) <|
    .ite (form_n .readstat rfl nofun) <| .ite (form_n .readacc rfl nofun) <|
    .ite (form_i .readperm (fun _ => rfl) nofun) <| .ite (form_i .readsync (fun _ => rfl) nofun) <|
    .ite (assemblePushBit_givesAssembled ops) <| .ite (assembleReadAll_givesAssembled ops) .reject

end forms

theorem assembleLine_givesAssembled (line : List Char) : GivesAssembled (assembleLine line) := by
  unfold assembleLine
  split
  · exact .accept (by simp)
  · split
    · exact .reject
    · exact assembleNamed_givesAssembled _ _

/-! ### Texts without blanks, commas and comments -/

/-- A character that ends neither a word nor an operand nor a line. -/
def isPlain (c : Char) : Bool := !isBlank c && c != ',' && c != ';'

/-- A text of such characters, with at least one: a mnemonic or a number. -/
def PlainText (cs : List Char) : Prop := cs ≠ [] ∧ ∀ c ∈ cs, isPlain c = true

/-- A text that has no blank at its ends, with at least one character. -/
def Trimmed (cs : List Char) : Prop :=
  cs ≠ [] ∧ cs.dropWhile isBlank = cs ∧ cs.reverse.dropWhile isBlank = cs.reverse

theorem plainText_of_all {cs : List Char} (nonempty : cs ≠ []) (plain : cs.all isPlain = true) : PlainText cs :=
  ⟨nonempty, List.all_eq_true.mp plain⟩

theorem isPlain_iff {c : Char} : isPlain c = true ↔ isBlank c = false ∧ c ≠ ',' ∧ c ≠ ';' := by
  simp [isPlain, and_assoc]

/-- Digits are plain. -/
theorem isPlain_of_digitOf {c : Char} {v : Nat} (h : digitOf c = some v) : isPlain c = true := by
  rw [isPlain_iff]
  have digit (d : Char) (none : digitOf d = none) : c ≠ d := by
    rintro rfl
    simp [none] at h
  refine ⟨?_, digit ',' (by decide), digit ';' (by decide)⟩
  simp [isBlank, digit ' ' (by decide), digit '\t' (by decide)]

/-- The digits of a number in a base up to 16 are a plain text. -/
theorem plainText_toDigits {base : Nat} (two_le : 2 ≤ base) (le_sixteen : base ≤ 16) (n : Nat) :
    PlainText (base.toDigits n) := by
  refine ⟨toDigits_ne_nil two_le n, fun c hc => ?_⟩
  obtain ⟨v, hv, -⟩ := digits_of_readDigits (readDigits_toDigits two_le le_sixteen n) c hc
  exact isPlain_of_digitOf hv

theorem PlainText.append {cs cs' : List Char} (h : PlainText cs) (h' : PlainText cs') : PlainText (cs ++ cs') := by
  obtain ⟨nonempty, plain⟩ := h
  obtain ⟨-, plain'⟩ := h'
  exact ⟨by simp [nonempty], List.forall_mem_append.mpr ⟨plain, plain'⟩⟩

/-- Every text of a number is plain (R73). -/
theorem plainText_numerals {n : Nat} {text : List Char} (h : text ∈ numerals n) : PlainText text := by
  simp only [numerals, List.mem_cons, List.not_mem_nil, or_false] at h
  rcases h with rfl | rfl | rfl
  · exact plainText_toDigits (by decide) (by decide) n
  · exact .append (plainText_of_all (by simp) rfl) (plainText_toDigits (by decide) (by decide) n)
  · exact .append (plainText_of_all (by simp) rfl) (plainText_toDigits (by decide) (by decide) n)

theorem dropWhile_isBlank_of_plain {cs : List Char} (h : ∀ c ∈ cs, isPlain c = true) : cs.dropWhile isBlank = cs := by
  cases cs with
  | nil => rfl
  | cons c cs =>
    obtain ⟨blank, -⟩ := isPlain_iff.mp (h c List.mem_cons_self)
    rw [List.dropWhile_cons_of_neg (by simp [blank])]

theorem PlainText.trimmed {cs : List Char} (h : PlainText cs) : Trimmed cs := by
  obtain ⟨nonempty, plain⟩ := h
  exact ⟨nonempty, dropWhile_isBlank_of_plain plain,
    dropWhile_isBlank_of_plain fun c hc => plain c (List.mem_reverse.mp hc)⟩

/-- A plain text begins no comment. -/
theorem PlainText.no_comment {cs : List Char} (h : PlainText cs) : ';' ∉ cs := by
  obtain ⟨-, plain⟩ := h
  exact fun mem => absurd (plain _ mem) (by decide)

theorem PlainText.no_comma {cs : List Char} (h : PlainText cs) : ',' ∉ cs := by
  obtain ⟨-, plain⟩ := h
  exact fun mem => absurd (plain _ mem) (by decide)

theorem Trimmed.trimBlanks {cs : List Char} (h : Trimmed cs) : trimBlanks cs = cs := by
  obtain ⟨-, front, back⟩ := h
  rw [Machine.trimBlanks, front, back, List.reverse_reverse]

/-- A text between two trimmed ones does not reach the ends. -/
theorem Trimmed.append {front back : List Char} (h : Trimmed front) (h' : Trimmed back) (middle : List Char) :
    Trimmed (front ++ middle ++ back) := by
  obtain ⟨nonempty, dropped, -⟩ := h
  obtain ⟨nonempty', -, dropped'⟩ := h'
  refine ⟨by simp [nonempty], ?_, ?_⟩
  · rw [List.append_assoc, List.dropWhile_append, dropped]
    simp [nonempty]
  · rw [List.reverse_append, List.dropWhile_append, dropped']
    simp [nonempty']

/-! ### The parts of a line -/

/-- A trimmed line without a comment is its own body. -/
theorem Trimmed.lineBody {cs : List Char} (h : Trimmed cs) (no_comment : ';' ∉ cs) : lineBody cs = cs := by
  have kept : cs.takeWhile (· != ';') = cs :=
    List.takeWhile_eq_self_iff.mpr fun c hc => bne_iff_ne.mpr (ne_of_mem_of_not_mem hc no_comment)
  rw [Machine.lineBody, kept, h.trimBlanks]

/-- A line of a mnemonic and operands gives the commands of that mnemonic with these operands (R73). -/
theorem assembleLine_words {name args : List Char} (mnemonic : PlainText name) (trimmed : Trimmed args)
    (no_comment : ';' ∉ args) : assembleLine (name ++ ' ' :: args) = (readOperands args).bind (assembleNamed name) := by
  have ⟨_, plain⟩ := mnemonic
  have no_blank (c : Char) (hc : c ∈ name) : (!isBlank c) = true := by simp [(isPlain_iff.mp (plain c hc)).1]
  have whole : Trimmed (name ++ [' '] ++ args) := mnemonic.trimmed.append trimmed [' ']
  rw [List.append_assoc, List.singleton_append] at whole
  have body : lineBody (name ++ ' ' :: args) = name ++ ' ' :: args :=
    whole.lineBody (by simp [mnemonic.no_comment, no_comment])
  have head : (name ++ ' ' :: args).takeWhile (fun c => !isBlank c) = name := by
    rw [List.takeWhile_append_of_pos no_blank, List.takeWhile_cons_of_neg (by decide), List.append_nil]
  have tail : (name ++ ' ' :: args).dropWhile (fun c => !isBlank c) = ' ' :: args := by
    rw [List.dropWhile_append_of_pos no_blank, List.dropWhile_cons_of_neg (by decide)]
  have operands : trimBlanks (' ' :: args) = args := trimmed.trimBlanks
  rw [assembleLine, body, head, tail, operands, if_neg (by simp)]
  cases readOperands args <;> rfl

theorem splitCommas_eq_singleton {cs : List Char} (h : ',' ∉ cs) : splitCommas cs = [cs] := by
  induction cs with
  | nil => rfl
  | cons c cs ih =>
    obtain ⟨hc, hcs⟩ := List.ne_and_not_mem_of_not_mem_cons h
    rw [splitCommas, if_neg (Ne.symm hc), ih hcs]

theorem splitCommas_append {cs : List Char} (h : ',' ∉ cs) (rest : List Char) :
    splitCommas (cs ++ ',' :: rest) = cs :: splitCommas rest := by
  induction cs with
  | nil => rw [List.nil_append, splitCommas, if_pos rfl]
  | cons c cs ih =>
    obtain ⟨hc, hcs⟩ := List.ne_and_not_mem_of_not_mem_cons h
    rw [List.cons_append, splitCommas, if_neg (Ne.symm hc), ih hcs]

/-- One number is one operand. -/
theorem readOperands_one {x : Nat} {text : List Char} (h : text ∈ numerals x) : readOperands text = some [x] := by
  have number := plainText_numerals h
  have ⟨nonempty, _⟩ := number
  rw [readOperands, if_neg nonempty, splitCommas_eq_singleton number.no_comma]
  simp [number.trimmed.trimBlanks, readNumber_numerals h]

/-- Two numbers with a comma between them are two operands. -/
theorem readOperands_two {n d : Nat} {nText dText : List Char} (hn : nText ∈ numerals n) (hd : dText ∈ numerals d) :
    readOperands (nText ++ ", ".toList ++ dText) = some [n, d] := by
  have first := plainText_numerals hn
  have second := plainText_numerals hd
  have split : splitCommas (nText ++ ", ".toList ++ dText) = [nText, ' ' :: dText] := by
    rw [List.append_assoc]
    calc splitCommas (nText ++ ',' :: ' ' :: dText)
        = nText :: splitCommas (' ' :: dText) := splitCommas_append first.no_comma _
      _ = [nText, ' ' :: dText] := by rw [splitCommas_eq_singleton (by simp [second.no_comma])]
  have trimmed : trimBlanks (' ' :: dText) = dText := second.trimmed.trimBlanks
  rw [readOperands, if_neg (by simp), split]
  simp [first.trimmed.trimBlanks, trimmed, readNumber_numerals hn, readNumber_numerals hd]

theorem assembleNamed_indexMnemonics {form : String × (Byte → Instr)} (h : form ∈ indexMnemonics) (ops : List Nat) :
    PlainText form.1.toList ∧ assembleNamed form.1.toList ops = assembleI form.2 ops := by
  simp only [indexMnemonics, List.mem_cons, List.not_mem_nil, or_false] at h
  rcases h with rfl | rfl | rfl | rfl <;> exact ⟨plainText_of_all (by simp) rfl, rfl⟩

/-- Settles O10: a line falls apart at its first blank and its operands at the comma, and every number is read back. -/
theorem assembledCommandsAreWellFormed : Obligations.AssembledCommandsAreWellFormed := by
  refine ⟨assembleLine_givesAssembled, fun line comment => ?_, by decide +kernel,
    fun n d nText hn dText hd => ?_, fun x xText hx form hform => ?_⟩
  · rw [assembleLine, lineBody_comment, assembleLine]
  · have first := plainText_numerals hn
    have second := plainText_numerals hd
    have words := assembleLine_words (name := "PUSH".toList) (plainText_of_all (by simp) rfl)
      (first.trimmed.append second.trimmed ", ".toList) (by simp [first.no_comment, second.no_comment])
    rw [readOperands_two hn hd] at words
    exact (congrArg assembleLine (by simp)).trans words
  · have ⟨mnemonic, named⟩ := assembleNamed_indexMnemonics hform [x]
    have number := plainText_numerals hx
    rw [assembleLine_words mnemonic number.trimmed number.no_comment, readOperands_one hx, Option.bind_some,
      named, assembleI]
    exact if_congr Nat.lt_succ_iff rfl rfl

end Sys2Proof.Machine

/-! SUPPORT. The encoder (40_core_functions.md R80 to R83): parity as an XOR of bits, linearity, and the 32 input bits a
coded bit depends on. -/

namespace Sys2Proof.Machine

/-! ### Parity and the encoder step (R80, R82) -/

theorem popcount_eq_card (v : Word) :
    popcount v = (Finset.univ.filter fun k : Fin 32 => v.getLsbD k.val = true).card := by
  have range : List.range 32 = (List.finRange 32).map Fin.val := List.map_coe_finRange_eq_range.symm
  rw [popcount, range, List.countP_map, List.countP_eq_length_filter, Fin.univ_def]
  simp [Finset.card, Function.comp_def]

/-- XORing chosen bits counts the set ones modulo 2, since in one bit the sum is the XOR. -/
theorem foldl_xor_extractLsb' (v : Word) (ks : List Nat) :
    ks.foldl (fun b k => b ^^^ v.extractLsb' k 1) 0 = BitVec.ofNat 1 (ks.countP fun k => v.getLsbD k) := by
  induction ks using List.reverseRecOn with
  | nil => rfl
  | append_singleton ks k ih =>
    have bit : v.extractLsb' k 1 = BitVec.ofNat 1 (if v.getLsbD k then 1 else 0) := by
      ext j hj
      obtain rfl : j = 0 := by omega
      cases h : v.getLsbD k <;> simp [h]
    rw [List.foldl_append, List.foldl_cons, List.foldl_nil, ih, bit, List.countP_append, List.countP_singleton,
      BitVec.ofNat_add, BitVec.add_eq_xor]

theorem parity_eq_foldl_xor (v : Word) :
    parity v = (List.range 32).foldl (fun b k => b ^^^ v.extractLsb' k 1) 0 := by
  rw [foldl_xor_extractLsb', parity, popcount]
  exact BitVec.eq_of_toNat_eq (by simp)

/-- Settles O11: the number of set bits modulo 2 is their sum in one bit, which is their XOR. -/
theorem parityIsTheXorOfAllBits : Obligations.ParityIsTheXorOfAllBits := by
  refine fun v => ⟨?_, parity_eq_foldl_xor v⟩
  rw [parity, popcount_eq_card]
  simp

/-- Settles O12: the arithmetic form is that of one shift, and the parities read the shifted accumulator. -/
theorem encoderStepShiftsAndTakesParities : Obligations.EncoderStepShiftsAndTakesParities :=
  fun acc b => ⟨shiftIn_toNat acc b, encstep_c0 acc b, encstep_c1 acc b⟩

/-! ### Linearity (R83) -/

theorem foldl_xor_xor {α : Type} {n : Nat} (f g : α → BitVec n) (l : List α) (a a' : BitVec n) :
    l.foldl (fun b k => b ^^^ (f k ^^^ g k)) (a ^^^ a') =
      l.foldl (fun b k => b ^^^ f k) a ^^^ l.foldl (fun b k => b ^^^ g k) a' := by
  induction l generalizing a a' with
  | nil => rfl
  | cons k l ih =>
    have swap : (a ^^^ a') ^^^ (f k ^^^ g k) = (a ^^^ f k) ^^^ (a' ^^^ g k) := by ac_rfl
    rw [List.foldl_cons, swap, ih, List.foldl_cons, List.foldl_cons]

theorem parity_xor (v w : Word) : parity (v ^^^ w) = parity v ^^^ parity w := by
  simp only [parity_eq_foldl_xor, BitVec.extractLsb'_xor]
  exact foldl_xor_xor _ _ _ 0 0

theorem parity_xor_and (v w mask : Word) :
    parity ((v ^^^ w) &&& mask) = parity (v &&& mask) ^^^ parity (w &&& mask) := by
  have distrib : (v ^^^ w) &&& mask = (v &&& mask) ^^^ (w &&& mask) := by
    ext k hk
    simp [Bool.and_xor_distrib_right]
  rw [distrib, parity_xor]

theorem shiftIn_xor (acc acc' : Word) (b b' : Bit) :
    shiftIn (acc ^^^ acc') (b ^^^ b') = shiftIn acc b ^^^ shiftIn acc' b' := by
  ext k hk
  rw [BitVec.getElem_xor]
  simp only [← BitVec.getLsbD_eq_getElem, shiftIn_getLsbD]
  cases k <;> simp [Bool.and_xor_distrib_left]

/-- The encoder is linear in the accumulator and the bits together (R83). -/
theorem convFrom_xor (acc acc' : Word) (m m' : List Bit) :
    convFrom (acc ^^^ acc') (List.zipWith (· ^^^ ·) m m') =
      List.zipWith (· ^^^ ·) (convFrom acc m) (convFrom acc' m') := by
  induction m generalizing acc acc' m' with
  | nil => rfl
  | cons b m ih =>
    cases m' with
    | nil => simp [convFrom]
    | cons b' m' => simp [convFrom, shiftIn_xor, parity_xor_and, ih]

/-- Settles O14: all three messages start from the accumulator 0, which is 0 ^ 0. -/
theorem encoderIsLinear : Obligations.EncoderIsLinear := by
  refine fun m m' => Vector.toList_inj.mp ?_
  simpa [conv, convBits] using convFrom_xor 0 0 m.toList m'.toList

/-! ### The 32 latest input bits (R83) -/

/-- Inputs that agree on their 32 latest bits leave the same accumulator. -/
theorem accFrom_take_congr {m m' : List Bit} {k : Nat} (hk : k < m.length) (hk' : k < m'.length)
    (agree : ∀ q ≤ k, k - 31 ≤ q → m[q]? = m'[q]?) :
    accFrom 0 (m.take (k + 1)) = accFrom 0 (m'.take (k + 1)) := by
  ext j hj
  have length : (m.take (k + 1)).length = k + 1 := List.length_take_of_le hk
  have length' : (m'.take (k + 1)).length = k + 1 := List.length_take_of_le hk'
  simp only [← BitVec.getLsbD_eq_getElem, accFrom_getLsbD 0 _ hj, length, length', Nat.add_sub_cancel]
  split
  · have same : m[k - j]? = m'[k - j]? := agree (k - j) (Nat.sub_le k j) (by omega)
    have early : k - j < k + 1 := by omega
    simp only [List.getD_eq_getElem?_getD, List.getElem?_take_of_lt early, same]
  · rfl

/-- Settles O15: both coded bits of a pair read the accumulator, which holds 32 bits. -/
theorem codedBitsDependOnThe32LatestInputs : Obligations.CodedBitsDependOnThe32LatestInputs := by
  intro m m' k hk agree
  have acc : accFrom 0 (m.toList.take (k + 1)) = accFrom 0 (m'.toList.take (k + 1)) :=
    accFrom_take_congr (by simpa) (by simpa) fun q hq latest => by simpa [hq.trans_lt hk] using agree q hq latest
  obtain ⟨even, odd⟩ := codedBitsComeInPairsPerInputBit m k hk
  obtain ⟨even', odd'⟩ := codedBitsComeInPairsPerInputBit m' k hk
  rw [even, odd, even', odd', acc]
  exact ⟨rfl, rfl⟩

end Sys2Proof.Machine

/-! SUPPORT. The interleaver (40_core_functions.md R85 to R90): byte reversal, the order of the permutation ROM, and
where each coded bit ends up. -/

namespace Sys2Proof.Machine

/-! ### Byte reversal (R85) -/

theorem rev8_getLsbD (i : Byte) {k : Nat} (hk : k < 8) : (rev8 i).getLsbD k = i.getLsbD (7 - k) := by
  rw [rev8, BitVec.getLsbD_reverse, BitVec.getMsbD]
  simp [hk]

theorem rev8_rev8 (i : Byte) : rev8 (rev8 i) = i := BitVec.reverse_reverse_eq

/-- Settles O16: `rev8` is the library's reversal of a bit vector. -/
theorem byteReversalMirrorsBits : Obligations.ByteReversalMirrorsBits :=
  fun i => ⟨fun _ hk => rev8_getLsbD i hk, rev8_rev8 i⟩

/-- `rev8` as a function of the numbers 0..255, as the construction of `PERM` uses it (R86). -/
def revNat (i : Nat) : Nat := (rev8 (BitVec.ofNat 8 i)).toNat

theorem revNat_revNat {i : Nat} (hi : i < 256) : revNat (revNat i) = i := by
  rw [revNat, revNat, BitVec.ofNat_toNat, BitVec.setWidth_eq, rev8_rev8, BitVec.toNat_ofNat, Nat.mod_eq_of_lt hi]

/-- The lowest bit of a byte is the highest bit of its reversal. -/
theorem mod_two_eq_one_iff_revNat {i : Nat} (hi : i < 256) : i % 2 = 1 ↔ 128 ≤ revNat i := by
  have mirror : (rev8 (BitVec.ofNat 8 i)).msb = (BitVec.ofNat 8 i).getLsbD 0 := BitVec.msb_reverse
  rw [BitVec.msb_eq_decide, BitVec.getLsbD, Nat.testBit_zero, BitVec.toNat_ofNat, Nat.mod_eq_of_lt hi] at mirror
  exact (decide_eq_decide.mp mirror).symm

/-! ### The permutation ROM (R86, R87) -/

/-- The entries of the ROM in order are the list it is built from. -/
theorem map_perm_finRange : (List.finRange 162).map perm = permList := List.map_get_finRange permList

theorem map_val_permList : permList.map Fin.val = ((List.range 256).map revNat).filter fun r => decide (r < 162) := by
  rw [permList, List.map_filterMap, ← List.filterMap_eq_filter, List.filterMap_map]
  congr 1
  funext i
  by_cases kept : (rev8 (BitVec.ofNat 8 i)).toNat < 162 <;> simp [kept, revNat, Option.guard]

/-- The entries stand in the order of the numbers they reverse: filtering 0..255 keeps its order. -/
theorem pairwise_revNat_permList : (permList.map Fin.val).Pairwise fun r r' => revNat r < revNat r' := by
  rw [map_val_permList]
  refine List.Pairwise.filter _ (List.pairwise_map.mpr (List.pairwise_lt_range.imp_of_mem fun hi hj lt => ?_))
  rwa [revNat_revNat (List.mem_range.mp hi), revNat_revNat (List.mem_range.mp hj)]

theorem revNat_perm_strictMono : StrictMono fun i => revNat (perm i).val := by
  intro i j lt
  have ordered := pairwise_revNat_permList
  rw [← map_perm_finRange, List.map_map, List.pairwise_map] at ordered
  simpa using List.pairwise_iff_getElem.mp ordered i j (by simp) (by simp) lt

theorem perm_bijective : Function.Bijective perm := ⟨perm_injective, Function.RightInverse.surjective perm_inv⟩

theorem perm_ends : perm 0 = 0 ∧ perm 80 = 126 ∧ perm 81 = 1 ∧ perm 161 = 127 := by decide +kernel

/-- `PERM[80]` reverses 126 and `PERM[81]` reverses 128, so the entries below reverse numbers without the highest bit
and the entries above numbers with it (R87). -/
theorem perm_mod_two (k : Fin 162) :
    (k.val ≤ 80 → (perm k).val % 2 = 0) ∧ (81 ≤ k.val → (perm k).val % 2 = 1) := by
  obtain ⟨-, last_even, first_odd, -⟩ := perm_ends
  have odd_iff := mod_two_eq_one_iff_revNat ((perm k).isLt.trans (by decide : 162 < 256))
  refine ⟨fun low => ?_, fun high => odd_iff.mpr ?_⟩
  · have below : revNat (perm k).val ≤ revNat (perm 80).val := revNat_perm_strictMono.monotone low
    rw [last_even, show revNat (126 : Fin 162).val = 126 by decide] at below
    omega
  · have above : revNat (perm 81).val ≤ revNat (perm k).val := revNat_perm_strictMono.monotone high
    rw [first_odd, show revNat (1 : Fin 162).val = 128 by decide] at above
    exact above

/-- Settles O17: the order of the entries follows from the construction, and the even half from the order. -/
theorem permIsABijectionWithEvenHalfFirst : Obligations.PermIsABijectionWithEvenHalfFirst := by
  refine ⟨?_, fun i j lt => revNat_perm_strictMono lt, perm_bijective, perm_mod_two, perm_ends⟩
  have entries := map_val_permList
  rwa [← map_perm_finRange, List.map_map] at entries

/-! ### The interleaver (R89, R90) -/

/-- Placing the coded bits of `is` one after another never overwrites one, because `PERM` is injective. -/
theorem foldl_set_perm_get (c v : Vector Bit 162) (is : List (Fin 162)) (i : Fin 162) :
    (is.foldl (fun acc i => acc.set (perm i).val (c.get i) (perm i).isLt) v).get (perm i) =
      if i ∈ is then c.get i else v.get (perm i) := by
  induction is using List.reverseRecOn with
  | nil => simp
  | append_singleton is p ih =>
    rw [List.foldl_append, List.foldl_cons, List.foldl_nil, Vector.get_eq_getElem, Vector.getElem_set]
    rcases eq_or_ne p i with rfl | other
    · simp
    · have apart : (perm p).val ≠ (perm i).val := fun same => other (perm_injective (Fin.ext same))
      rw [if_neg apart, ← Vector.get_eq_getElem, ih]
      simp [other.symm]

theorem interleave_get_perm (c : Vector Bit 162) (i : Fin 162) : (interleave c).get (perm i) = c.get i := by
  rw [interleave, foldl_set_perm_get, if_pos (List.mem_finRange i)]

theorem interleave_get (c : Vector Bit 162) (j : Fin 162) : (interleave c).get j = c.get (inv j) := by
  rw [← interleave_get_perm c, perm_inv]

/-- Settles O18: every index is placed, and none is overwritten. -/
theorem interleaverPlacesEveryCodedBit : Obligations.InterleaverPlacesEveryCodedBit := interleave_get_perm

/-- Settles O19: position `j` is the place of coded bit `INV[j]`. -/
theorem interleaverReadsThroughTheInverse : Obligations.InterleaverReadsThroughTheInverse := ⟨inv_perm, interleave_get⟩

end Sys2Proof.Machine

/-! SUPPORT. The symbol composer and the frame function (40_core_functions.md R91, R92): a symbol is the data bit above
the sync bit, and a frame is the three stages in order. -/

namespace Sys2Proof.Machine

/-! ### One symbol (R91) -/

theorem composeBit_toNat (i s : Bit) : (composeBit i s).toNat = 2 * i.toNat + s.toNat := by
  have := i.isLt
  have := s.isLt
  simp only [composeBit, BitVec.toNat_add, BitVec.toNat_mul, BitVec.toNat_setWidth, BitVec.toNat_ofNat]
  omega

/-- The two bits of a symbol stand side by side. -/
theorem composeBit_eq_append : ∀ i s : Bit, composeBit i s = i ++ s := by decide

theorem composeBit_eq_or (i s : Bit) : composeBit i s = (i.setWidth 2 <<< 1) ||| s.setWidth 2 :=
  (composeBit_eq_append i s).trans (append_eq_or i s)

theorem composeBit_eq_xor (i s : Bit) : composeBit i s = (i.setWidth 2 <<< 1) ^^^ s.setWidth 2 := by
  rw [composeBit_eq_or]
  ext k hk
  cases k <;> simp

@[simp] theorem compose_get (i : Vector Bit 162) (s : Fin 162 → Bit) (j : Fin 162) :
    (compose i s).get j = composeBit (i.get j) (s j) := by
  rw [compose, Vector.get_eq_getElem, Vector.getElem_ofFn]

/-- Settles O20: the data bit and the sync bit are the two parts of an append. -/
theorem symbolIsDataBitAboveSyncBit : Obligations.SymbolIsDataBitAboveSyncBit := by
  intro i sync j
  rw [compose_get]
  refine ⟨composeBit_toNat _ _, ?_, ?_, composeBit_eq_or _ _, composeBit_eq_xor _ _⟩
  · rw [composeBit_eq_append]
    exact BitVec.extractLsb'_append_eq_left
  · rw [composeBit_eq_append]
    exact BitVec.extractLsb'_append_eq_right

/-! ### The frame (R92) -/

theorem frame_get_toNat (m : Message) (j : Fin 162) :
    ((frame m).get j).toNat = 2 * ((conv m).get (inv j)).toNat + (Config.sync j).toNat := by
  rw [frame, frameWith, compose_get, composeBit_toNat, interleave_get]

/-- A linear encoder sends 0 to 0: the all-zero message is the XOR of itself with itself. -/
theorem conv_zero_get (i : Fin 162) : (conv (Vector.replicate 81 0)).get i = 0 := by
  have cancel : Vector.zipWith (· ^^^ ·) (Vector.replicate 81 (0 : Bit)) (Vector.replicate 81 0) =
      Vector.replicate 81 0 := by simp
  have linear := encoderIsLinear (Vector.replicate 81 0) (Vector.replicate 81 0)
  rw [cancel] at linear
  rw [linear, Vector.get_eq_getElem, Vector.getElem_zipWith]
  exact BitVec.xor_self

/-- Settles O21: the closed form reads the interleaver through `INV`, and all coded bits of the zero message are 0. -/
theorem frameComposesTheThreeStages : Obligations.FrameComposesTheThreeStages := by
  refine ⟨fun m => rfl, frame_get_toNat, fun j => ?_⟩
  rw [frame_get_toNat, conv_zero_get]
  simp

end Sys2Proof.Machine

/-! SUPPORT. The commands one by one (41_commands.md R100 to R109): what each of them answers, what each of them leaves
unchanged, and the frame that command words leave after CLEAR (R110, R111). -/

namespace Sys2Proof.Machine

/-! ### The dispatch (R100) -/

/-- Settles O22: taking the event away leaves `runWord`, which is decided by the decoder's verdict. -/
theorem stepRunsTheDecodedCommand : Obligations.StepRunsTheDecodedCommand := by
  intro s w rest inputs
  rw [step_cons inputs, runEvent]
  refine ⟨fun i word => ?_, fun e word => ?_⟩
  · obtain ⟨wellFormed, -⟩ := decode_eq_command_iff.mp word
    exact ⟨wellFormed, runWord_command word _⟩
  · rw [runWord_illegal word, fail_eq, failed_eq]

/-- Settles O24: a word runs to a next state and answers once, whatever stands behind it. -/
theorem everyCommandWordGetsOneResponse : Obligations.EveryCommandWordGetsOneResponse := by
  intro s w rest inputs
  obtain ⟨t, r, run, -, inputs', responses⟩ := runWord_issue w [] { s with inputs := rest }
  exact ⟨t, r, (step_cons inputs).trans run, responses, inputs'⟩

theorem rejectsIllegalFields (op : Nat) : RejectsIllegalFields op :=
  fun s _ _ illegal => runWord_of_illegalInFields illegal s

/-! ### NOP and CLEAR (R101, R102) -/

/-- A command without operands has one word; every other word of its opcode raises ILLEGAL_FIELD (R61, R66). -/
theorem runWord_of_other_word {op : BitVec 4} {i : Instr} (row : (op, i) ∈ opcodesN) {w : Word}
    (opcode : (opcodeField w).toNat = op.toNat) (other : w ≠ encode i) (s : State) :
    runWord w s = .next (failed s 0x02#8) := by
  obtain rfl : opcodeField w = op := BitVec.eq_of_toNat_eq opcode
  refine runWord_of_illegalInFields ((illegalInFields_opcodesN row).mpr fun zero => other ?_) s
  rw [encode_opcodesN row, wordN_of_reserved_zero zero]

/-- Settles O27: NOP succeeds with data 0 on the state as it is. -/
theorem nopOnlyAnswers : Obligations.NopOnlyAnswers :=
  ⟨fun _ => rfl, rfl, fun s _ op other => runWord_of_other_word (op := 0x0) (i := .nop) (by simp [opcodesN]) op other s⟩

/-- Settles O28: CLEAR succeeds with data 0 on the cleared state, which is that of reset. -/
theorem clearBeginsANewFrame : Obligations.ClearBeginsANewFrame := by
  refine ⟨fun s => rfl, fun s t h => ?_, rfl, fun s w op other => ?_⟩
  · cases h
    exact resetState_clear s
  · exact runWord_of_other_word (op := 0x1) (i := .clear) (by simp [opcodesN]) op other s

/-! ### PUSH (R103) -/

theorem pushCountLegal_eq_true {n : BitVec 5} : pushCountLegal n = true ↔ 1 ≤ n.toNat ∧ n.toNat ≤ 16 := by
  simp [pushCountLegal]

section push
variable {n : BitVec 5} {s : State}

/-- A PUSH that fits consumes its bits and answers the new count. -/
theorem exec_push_of_fits (legal : 1 ≤ n.toNat ∧ n.toNat ≤ 16) (fits : s.nin.toNat + n.toNat ≤ 81) (d : BitVec 16) :
    exec (.push n d) s =
      .next ((s.pushBits (pushBitsOf n d)).respond .ok (BitVec.ofNat 32 (s.nin.toNat + n.toNat))) := by
  have nin : (s.pushBits (pushBitsOf n d)).nin.toNat = s.nin.toNat + n.toNat := by
    rw [pushBits_nin_toNat (by rwa [pushBitsOf_length]), pushBitsOf_length]
  rw [exec, execPush, if_pos (pushCountLegal_eq_true.mpr legal), if_neg (Nat.not_lt.mpr fits), ← nin,
    BitVec.ofNat_toNat, succeed_eq]

/-- A PUSH that does not fit fails before it consumes a bit. -/
theorem exec_push_of_overflow (legal : 1 ≤ n.toNat ∧ n.toNat ≤ 16) (above : 81 < s.nin.toNat + n.toNat)
    (d : BitVec 16) : exec (.push n d) s = .next (failed s 0x04#8) := by
  rw [exec, execPush, if_pos (pushCountLegal_eq_true.mpr legal), if_pos above, fail_eq, failed_eq, Status.code]

end push

/-- Settles O29: the bits that a PUSH consumes are put on the state one after another, or the guard stops it. -/
theorem pushConsumesAllItsBitsOrNone : Obligations.PushConsumesAllItsBitsOrNone := by
  refine ⟨rejectsIllegalFields 0x2, fun s n d low high => ⟨fun fits => ?_, fun above => ?_, fun d' same => ?_⟩⟩
  · have fits_bits : s.nin.toNat + (pushBitsOf n d).length ≤ 81 := by rwa [pushBitsOf_length]
    refine ⟨_, exec_push_of_fits ⟨low, high⟩ fits d, pushBits_acc s _, ?_, fun i => ?_, pushBits_lasterr s _,
      pushBits_inputs s _, pushBits_draws s _, ?_⟩
    · rw [respond_nin, pushBits_nin_toNat fits_bits, pushBitsOf_length]
    · rw [respond_cb, pushBits_cb_get fits_bits, pushBitsOf_length]
    · rw [respond_responses, pushBits_responses, ok_code]
  · exact exec_push_of_overflow ⟨low, high⟩ above d
  · exact (exec_push_congr same s).symm

theorem SameArch.symm {s t : State} (h : SameArch s t) : SameArch t s := by
  obtain ⟨acc, nin, cb, lasterr⟩ := h
  exact ⟨acc.symm, nin.symm, cb.symm, lasterr.symm⟩

theorem SameArch.trans {s t u : State} (h : SameArch s t) (h' : SameArch t u) : SameArch s u := by
  obtain ⟨acc, nin, cb, lasterr⟩ := h
  obtain ⟨acc', nin', cb', lasterr'⟩ := h'
  exact ⟨acc.trans acc', nin.trans nin', cb.trans cb', lasterr.trans lasterr'⟩

theorem execAll_cons {i : Instr} {s t : State} (h : exec i s = .next t) (is : List Instr) :
    execAll (i :: is) s = execAll is t := by
  simp [execAll, h]

/-- Pushes that fit leave the architectural state that their bits leave, put on one after another. -/
theorem execAll_pushCommands {ps : List (BitVec 5 × BitVec 16)} {s : State}
    (legal : ∀ p ∈ ps, 1 ≤ p.1.toNat ∧ p.1.toNat ≤ 16) (fits : s.nin.toNat + (pushedBits ps).length ≤ 81) :
    ∃ t, execAll (pushCommands ps) s = .next t ∧ SameArch (s.pushBits (pushedBits ps)) t := by
  induction ps generalizing s with
  | nil => exact ⟨s, rfl, rfl, rfl, rfl, rfl⟩
  | cons p ps ih =>
    obtain ⟨n, d⟩ := p
    obtain ⟨first, legal⟩ := List.forall_mem_cons.mp legal
    have bits : pushedBits ((n, d) :: ps) = pushBitsOf n d ++ pushedBits ps := List.flatMap_cons
    rw [bits, List.length_append, ← Nat.add_assoc] at fits
    have fits_first : s.nin.toNat + (pushBitsOf n d).length ≤ 81 := (Nat.le_add_right _ _).trans fits
    obtain ⟨u, run, same⟩ : ∃ u, exec (.push n d) s = .next u ∧ SameArch (s.pushBits (pushBitsOf n d)) u :=
      ⟨_, exec_push_of_fits first (by rwa [pushBitsOf_length] at fits_first) d, rfl, rfl, rfl, rfl⟩
    have ⟨_, nin, _, _⟩ := same
    obtain ⟨t, rest, same'⟩ := ih legal (by rwa [← nin, pushBits_nin_toNat fits_first])
    refine ⟨t, (execAll_cons run _).trans rest, ?_⟩
    rw [bits, pushBits_append]
    exact (same.pushBits (pushedBits ps)).trans same'

/-- Settles O31: both splits leave what the one list of bits leaves. -/
theorem frameMayBePushedInAnySplit : Obligations.FrameMayBePushedInAnySplit := by
  intro s ps qs legal legal' bits fits
  obtain ⟨t, run, same⟩ := execAll_pushCommands legal fits
  obtain ⟨u, run', same'⟩ := execAll_pushCommands legal' (bits ▸ fits)
  have ⟨acc, nin, _, _⟩ := same
  refine ⟨t, u, run, run', same.symm.trans (bits ▸ same'), ?_, ?_⟩
  · rw [← nin, pushBits_nin_toNat fits]
  · rw [← acc, pushBits_acc]

/-! ### READSYM and READCODE (R104, R105) -/

theorem indexOf_ofNat (j : Fin 162) : indexOf (BitVec.ofNat 8 j.val) = some j := by
  have val : (BitVec.ofNat 8 j.val).toNat = j.val := by
    rw [BitVec.toNat_ofNat, Nat.mod_eq_of_lt (j.isLt.trans (by decide))]
  simp [indexOf, val]

section reads
variable {s : State} {x : Byte} {j : Fin 162} {b : Bit}

theorem exec_readsym_of_incomplete (index : indexOf x = some j) (short : s.nin.toNat < 81) :
    exec (.readsym x) s = .next (failed s 0x05#8) := by
  simp only [exec, execReadsym, index, if_pos short]
  rfl

theorem exec_readsym_of_complete (index : indexOf x = some j) (complete : s.nin.toNat = 81)
    (entry : s.cb.get (inv j) = some b) :
    exec (.readsym x) s = .next (answered s 0x00#8 ((composeBit b (Config.sync j)).setWidth 32)) := by
  simp only [exec, execReadsym, index, if_neg complete.not_lt, entry]
  rfl

theorem exec_readcode_of_unwritten (index : indexOf x = some j) (unwritten : 2 * s.nin.toNat ≤ j.val) :
    exec (.readcode x) s = .next (failed s 0x05#8) := by
  simp only [exec, execReadcode, index, readableCode_of_ge unwritten]
  rfl

theorem exec_readcode_of_written (index : indexOf x = some j) (written : j.val < 2 * s.nin.toNat)
    (entry : s.cb.get j = some b) : exec (.readcode x) s = .next (answered s 0x00#8 (b.setWidth 32)) := by
  simp only [exec, execReadcode, index, readableCode_of_lt written, entry]
  rfl

end reads

/-- Settles O32: a complete frame has every entry written, so the entry the symbol is made of is there. -/
theorem readsymAnswersOnceTheFrameIsDone : Obligations.ReadsymAnswersOnceTheFrameIsDone := by
  refine ⟨rejectsIllegalFields 0x3, fun s x => ?_⟩
  refine ⟨fun out => ?_, fun inside short => ?_, fun inside before complete => ?_⟩
  · exact exec_index_of_ge (op := 0x3) (by simp [opcodesI]) out s
  · exact exec_readsym_of_incomplete (indexOf_of_lt inside) short
  · obtain ⟨done_iff, written⟩ := doneMeansEveryEntryIsWritten s
    obtain ⟨b, entry⟩ := written before (done_iff.mpr complete) (inv ⟨x.toNat, inside⟩)
    refine ⟨b, entry, ?_⟩
    rw [exec_readsym_of_complete (indexOf_of_lt inside) complete entry, ← composeBit_toNat, BitVec.ofNat_toNat]

/-- Settles O33: the entries below `2 × NIN` are written, also in a partly pushed frame. -/
theorem readcodeAnswersWrittenEntries : Obligations.ReadcodeAnswersWrittenEntries := by
  refine ⟨rejectsIllegalFields 0x4, fun s x => ?_⟩
  refine ⟨fun out => ?_, fun inside unwritten => ?_, fun inside before below => ?_⟩
  · exact exec_index_of_ge (op := 0x4) (by simp [opcodesI]) out s
  · exact exec_readcode_of_unwritten (indexOf_of_lt inside) unwritten
  · obtain ⟨-, written, -⟩ := before
    obtain ⟨b, entry⟩ := Option.isSome_iff_exists.mp ((written ⟨x.toNat, inside⟩).mpr below)
    refine ⟨b, entry, ?_⟩
    rw [exec_readcode_of_written (indexOf_of_lt inside) below entry, BitVec.ofNat_toNat]

/-! ### READSTAT (R106) -/

/-- The `DONE` bit of STATUS (R25, R27). -/
def doneBit (s : State) : Bit := if s.done then 1#1 else 0#1

theorem doneBit_eq_one_iff (s : State) : doneBit s = 1 ↔ s.nin.toNat = 81 := by
  obtain ⟨done_iff, -⟩ := doneMeansEveryEntryIsWritten s
  rw [← done_iff]
  cases h : s.done <;> simp [doneBit, h]

/-- The fields of STATUS stand side by side (R27). -/
theorem statusWord_eq_append (s : State) : statusWord s = (s.lasterr ++ doneBit s ++ s.nin).setWidth 32 := by
  have widened : (if s.done then 1#32 else 0#32) = (doneBit s).setWidth 32 := by
    cases h : s.done <;> simp [doneBit, h]
  rw [statusWord, widened, BitVec.setWidth_append_append_eq_shiftLeft_setWidth_or]

/-- A field of STATUS within its 16 used bits is that field of the parts. -/
theorem statusWord_extractLsb' (s : State) {start len : Nat} (h : start + len ≤ 16) :
    (statusWord s).extractLsb' start len = (s.lasterr ++ doneBit s ++ s.nin).extractLsb' start len := by
  rw [statusWord_eq_append, BitVec.extractLsb'_setWidth_of_le (by omega)]

theorem statusWord_nin (s : State) : (statusWord s).extractLsb' 0 7 = s.nin :=
  (statusWord_extractLsb' s (by decide)).trans BitVec.extractLsb'_append_eq_right

theorem statusWord_done (s : State) : (statusWord s).extractLsb' 7 1 = doneBit s :=
  calc (statusWord s).extractLsb' 7 1
      = (s.lasterr ++ doneBit s ++ s.nin).extractLsb' 7 1 := statusWord_extractLsb' s (by decide)
    _ = (s.lasterr ++ doneBit s).extractLsb' 0 1 := BitVec.extractLsb'_append_eq_of_le (by decide)
    _ = doneBit s := BitVec.extractLsb'_append_eq_right

theorem statusWord_lasterr (s : State) : (statusWord s).extractLsb' 8 8 = s.lasterr :=
  calc (statusWord s).extractLsb' 8 8
      = (s.lasterr ++ doneBit s ++ s.nin).extractLsb' 8 8 := statusWord_extractLsb' s (by decide)
    _ = (s.lasterr ++ doneBit s).extractLsb' 1 8 := BitVec.extractLsb'_append_eq_of_le (by decide)
    _ = s.lasterr := BitVec.extractLsb'_append_eq_left

theorem statusWord_high (s : State) : (statusWord s).extractLsb' 16 16 = 0 := by
  refine BitVec.eq_of_toNat_eq ?_
  rw [BitVec.extractLsb'_toNat, Nat.shiftRight_eq_div_pow, Nat.div_eq_of_lt (statusWord_toNat_lt s)]
  rfl

/-- Settles O35: the data is STATUS, read field by field. -/
theorem readstatShowsEveryField : Obligations.ReadstatShowsEveryField := by
  refine ⟨rejectsIllegalFields 0x5, fun s => ⟨statusWord s, rfl, statusWord_nin s, statusWord_lasterr s,
    statusWord_high s, ?_, fun ⟨bound, _, _⟩ => ?_⟩⟩
  · rw [statusWord_done, statusWord_nin]
    exact doneBit_eq_one_iff s
  · rwa [statusWord_nin]

/-! ### READACC (R107) -/

/-- Ones that fill the accumulator push everything else out of it. -/
theorem accFrom_replicate_one (acc : Word) {k : Nat} (hk : 32 ≤ k) :
    accFrom acc (List.replicate k 1) = 0xFFFFFFFF#32 := by
  ext j hj
  have latest : (List.replicate k (1 : Bit)).getD ((List.replicate k (1 : Bit)).length - 1 - j) 0 = 1 := by
    simp [show k - 1 - j < k by omega]
  rw [← BitVec.getLsbD_eq_getElem, accFrom_getLsbD acc _ hj, if_pos (by simp; omega), latest]
  exact (BitVec.getElem_allOnes j hj).symm

/-- The last 32 bits of a message whose last 31 are zero are `m[49]` and zeros (R22). -/
theorem accFrom_of_zero_tail {m : Message} (zero : ∀ q (_ : q < 81), 50 ≤ q → m[q] = 0) :
    accFrom 0 m.toList = m[49].setWidth 32 <<< 31 := by
  ext j hj
  have latest : (accFrom 0 m.toList).getLsbD j = m[80 - j].getLsbD 0 := by
    rw [accFrom_getLsbD 0 m.toList hj, if_pos (by simp; omega)]
    simp [Vector.getElem?_eq_getElem (xs := m) (i := 80 - j) (by omega)]
  rw [← BitVec.getLsbD_eq_getElem, latest]
  rcases Nat.lt_or_ge j 31 with low | top
  · rw [zero (80 - j) (by omega) (by omega)]
    simp [low]
  · obtain rfl : j = 31 := by omega
    simp

/-- Settles O36: READACC answers `ACC`, and the corner cases are those of the accumulator. -/
theorem readaccAnswersTheAccumulator : Obligations.ReadaccAnswersTheAccumulator :=
  ⟨rejectsIllegalFields 0x6, fun _ => rfl, rfl, fun acc _ => accFrom_replicate_one acc, fun _ => accFrom_of_zero_tail⟩

/-! ### READPERM and READSYNC (R108, R109) -/

/-- Settles O37: the answer reads the permutation ROM and nothing of the state. -/
theorem readpermAnswersInEveryState : Obligations.ReadpermAnswersInEveryState := by
  refine ⟨rejectsIllegalFields 0x7, fun s x => ⟨fun out => ?_, fun inside => ⟨_, (perm _).isLt, rfl, ?_⟩⟩⟩
  · exact exec_index_of_ge (op := 0x7) (by simp [opcodesI]) out s
  · simp only [exec, execReadperm, indexOf_of_lt inside]
    rfl

/-- Settles O38: the answer reads the synchronization vector and nothing of the state. -/
theorem readsyncAnswersInEveryState : Obligations.ReadsyncAnswersInEveryState := by
  refine ⟨rejectsIllegalFields 0x8, fun s x => ⟨fun out => ?_, fun inside => ?_⟩⟩
  · exact exec_index_of_ge (op := 0x8) (by simp [opcodesI]) out s
  · simp only [exec, execReadsync, indexOf_of_lt inside, BitVec.ofNat_toNat]
    rfl

/-! ### The frame after CLEAR (R110, R111) -/

/-- CLEAR and command words run to a state that holds the bits they consumed, whatever the state before. -/
theorem runWords_clear_holds (s : State) (ws : List Word) :
    ∃ t, runWords (0x10000000#32 :: ws) s = .next t ∧ Holds (ws.foldl frameAfterWord []) t := by
  obtain ⟨t, run, fold, -⟩ := runningWordsIsTheLeftFold (0x10000000#32 :: ws) s
  exact ⟨t, run, holds_of_clear_first fold⟩

/-- The coded bits of the first bits of a message are the first coded bits of the message (R83, R111). -/
theorem convBits_isPrefix {m m' : List Bit} (h : m <+: m') : convBits m <+: convBits m' := by
  obtain ⟨rest, rfl⟩ := h
  exact ⟨_, (convFrom_append 0 m rest).symm⟩

/-- Settles O53: the coded bits of the consumed bits, which CB holds, are the first coded bits of the message. -/
theorem codedBitsDoNotDependOnLaterBits : Obligations.CodedBitsDoNotDependOnLaterBits := by
  intro s ws _
  obtain ⟨t, run, -, -, -, cb⟩ := runWords_clear_holds s ws
  refine ⟨t, run, fun m begins i consumed => ?_⟩
  have first : i.val < (convBits (ws.foldl frameAfterWord [])).length := by rwa [convBits, convFrom_length]
  obtain ⟨later, whole⟩ := convBits_isPrefix begins
  rw [cb i, ← List.getElem?_append_left (l₂ := later) first, whole, ← conv_getElem?]
  exact Vector.getElem?_eq_getElem i.isLt

theorem frame_get (m : Message) (j : Fin 162) :
    (frame m).get j = composeBit ((conv m).get (inv j)) (Config.sync j) := by
  rw [frame, frameWith, compose_get, interleave_get]

section complete
variable {m : Message} {s : State}

theorem Holds.nin_eq (h : Holds m.toList s) : s.nin.toNat = 81 := by
  obtain ⟨-, nin, -, -⟩ := h
  simpa using nin

/-- A complete frame answers its symbols (R104). -/
theorem Holds.exec_readsym (h : Holds m.toList s) (j : Fin 162) : exec (.readsym (BitVec.ofNat 8 j.val)) s =
    .next (answered s 0x00#8 (((frame m).get j).setWidth 32)) := by
  rw [frame_get]
  exact exec_readsym_of_complete (indexOf_ofNat j) h.nin_eq (h.cb_get (inv j))

/-- A complete frame answers its coded bits (R105). -/
theorem Holds.exec_readcode (h : Holds m.toList s) (i : Fin 162) : exec (.readcode (BitVec.ofNat 8 i.val)) s =
    .next (answered s 0x00#8 (((conv m).get i).setWidth 32)) :=
  exec_readcode_of_written (indexOf_ofNat i) (by rw [h.nin_eq]; exact i.isLt) (h.cb_get i)

end complete

/-- Settles O54: the state after the words holds the message, and a complete frame answers every read. -/
theorem frameIsCorrectFromAnyState : Obligations.FrameIsCorrectFromAnyState := by
  intro s ws m _ consumed
  obtain ⟨t, run, holds⟩ := runWords_clear_holds s ws
  rw [consumed] at holds
  exact ⟨t, run, holds.exec_readsym, holds.exec_readcode⟩

end Sys2Proof.Machine

/-! SUPPORT. How a command word completes (60_exceptions.md R140 to R143): what a failure changes, and which status a
word gets in a state. -/

namespace Sys2Proof.Machine

/-! ### A failing command (R141, R142) -/

/-- The block goes on from every state: no step ends in a fault or a refusal (R142, 70_reset_and_hazards.md R179). -/
theorem exists_step_eq_next (s : State) : ∃ t, step s = .next t := by
  cases inputs : s.inputs with
  | nil => exact ⟨s, step_nil inputs⟩
  | cons e rest =>
    rw [step_cons inputs]
    cases e with
    | command w =>
      obtain ⟨t, run, -⟩ := runWord_outcome w { s with inputs := rest }
      exact ⟨t, run⟩
    | reset => exact ⟨_, runReset_eq _⟩
    | resetDuring w =>
      obtain ⟨t, run, -⟩ := runWord_outcome w { s with inputs := rest }
      exact ⟨_, runResetDuring_eq run⟩

/-- A command word whose response carries an error code ended in the one failure (R141). -/
theorem EventOutcome.eq_failed {w : Word} {s t : State} {r : Response} (h : EventOutcome (.command w) s t)
    (response : t.responses = s.responses ++ [r]) (error : r.status ≠ 0x00#8) :
    t = failed s r.status ∧ r.data = 0x00000000#32 := by
  cases h with
  | fails code =>
    rw [response_eq code 0 (t := s.setLasterr code) rfl response]
    exact ⟨rfl, rfl⟩
  | answers data =>
    rw [response_eq .ok data rfl response] at error
    exact absurd rfl error
  | clears =>
    rw [response_eq .ok 0 (clear_responses s) response] at error
    exact absurd rfl error
  | pushes =>
    rw [response_eq .ok _ (pushBits_responses s _) response] at error
    exact absurd rfl error
  | resets reset => simp at reset

/-- Settles O44: of the ways a command word can end, only the failure answers an error code. -/
theorem failingCommandChangesOnlyLasterr : Obligations.FailingCommandChangesOnlyLasterr := by
  intro s t w rest r inputs h response error
  obtain ⟨state, data⟩ := (step_next inputs h).eq_failed response error
  exact ⟨state, data, exists_step_eq_next t⟩

/-! ### The status of a command word (R140, R143) -/

/-- The result `x`, reached from `s`, completes with a status code: it answers that code once, and an error code stands
in `LASTERR` and comes with data 0. No code is above 5 (R140). -/
def CompletesWith (code : Byte) (s : State) (x : Result) : Prop :=
  ∃ (t : State) (data : Word), x = .next t ∧ t.responses = s.responses ++ [⟨code, data⟩] ∧
    (code ≠ 0x00#8 → t.lasterr = code ∧ data = 0x00000000#32) ∧ code.toNat ≤ 5

theorem completesWith_failed (e : Status) (s : State) : CompletesWith e.code s (.next (failed s e.code)) :=
  ⟨_, _, rfl, rfl, fun _ => ⟨rfl, rfl⟩, code_le e⟩

theorem completesWith_ok {s t : State} (kept : t.responses = s.responses) (data : Word) :
    CompletesWith 0x00#8 s (.next (t.respond .ok data)) :=
  ⟨_, data, rfl, by rw [respond_responses, kept, ok_code], fun error => absurd rfl error, Nat.zero_le 5⟩

section words
variable {w : Word} {s : State}

/-- A word of a reserved opcode raises ILLEGAL_OPCODE in every state (R65). -/
theorem runWord_of_reserved (above : 9 ≤ (opcodeField w).toNat) (s : State) :
    runWord w s = .next (failed s 0x01#8) := by
  obtain ⟨i, word, -, reserved⟩ := decode_of_reserved above
  rw [runWord_command word, exec_of_isReserved reserved]

/-- A word of a format N opcode that is legal in its fields is its command (R61). -/
theorem decode_legal_opcodesN {i : Instr} (row : (opcodeField w, i) ∈ opcodesN) (legal : ¬ illegalInFields w) :
    decode w = .command i := by
  rw [illegalInFields_opcodesN row, not_not] at legal
  rw [decode_opcodesN row, decodeN, if_pos legal]

theorem toNat_mem_of_opcodesI {op : BitVec 4} {command : Byte → Instr} (row : (op, command) ∈ opcodesI) :
    op.toNat ∈ [0x3, 0x4, 0x7, 0x8] := by
  obtain ⟨rfl, -⟩ | ⟨rfl, -⟩ | ⟨rfl, -⟩ | ⟨rfl, -⟩ := mem_opcodesI_iff.mp row <;> decide

/-- A word of a format I opcode that is legal in its fields is the command of its index (R63). -/
theorem decode_legal_opcodesI {command : Byte → Instr} (row : (opcodeField w, command) ∈ opcodesI)
    (legal : ¬ illegalInFields w) : decode w = .command (command (w.extractLsb' 0 8)) := by
  rw [illegalInFields_opcodesI row, not_not] at legal
  rw [decode_opcodesI row, decodeI, if_pos legal]

/-- The count of a PUSH word that is legal in its fields is 1..16 (R67). -/
theorem count_of_legal_push (op : opcodeField w = 0x2) (legal : ¬ illegalInFields w) :
    1 ≤ (w.extractLsb' 16 5).toNat ∧ (w.extractLsb' 16 5).toNat ≤ 16 :=
  pushCountLegal_eq_true.mp (decode_push (decode_legal_push op legal))

end words

section success
variable {op : BitVec 4} {s : State}

/-- A command of format N never fails (R101, R102, R106, R107). -/
theorem exec_opcodesN_completes {i : Instr} (row : (op, i) ∈ opcodesN) (s : State) :
    CompletesWith 0x00#8 s (exec i s) := by
  obtain ⟨-, rfl⟩ | ⟨-, rfl⟩ | ⟨-, rfl⟩ | ⟨-, rfl⟩ := mem_opcodesN_iff.mp row
  · exact completesWith_ok rfl 0
  · exact completesWith_ok (clear_responses s) 0
  · exact completesWith_ok rfl (statusWord s)
  · exact completesWith_ok rfl s.acc

/-- A read of an index below 162 succeeds when the frame is complete, for READSYM, and the bit is written, for READCODE
(R104, R105, R108, R109). -/
theorem exec_opcodesI_completes {command : Byte → Instr} {x : Byte} (row : (op, command) ∈ opcodesI)
    (before : StateInv s) (inside : x.toNat < 162) (complete : op = 0x3 → s.nin.toNat = 81)
    (written : op = 0x4 → x.toNat < 2 * s.nin.toNat) : CompletesWith 0x00#8 s (exec (command x) s) := by
  obtain ⟨op, rfl⟩ | ⟨op, rfl⟩ | ⟨-, rfl⟩ | ⟨-, rfl⟩ := mem_opcodesI_iff.mp row
  · obtain ⟨-, reads⟩ := readsymAnswersOnceTheFrameIsDone
    obtain ⟨-, -, answers⟩ := reads s x
    obtain ⟨b, -, run⟩ := answers inside before (complete op)
    exact run ▸ completesWith_ok rfl _
  · obtain ⟨-, reads⟩ := readcodeAnswersWrittenEntries
    obtain ⟨-, -, answers⟩ := reads s x
    obtain ⟨b, -, run⟩ := answers inside before (written op)
    exact run ▸ completesWith_ok rfl _
  · obtain ⟨-, reads⟩ := readpermAnswersInEveryState
    obtain ⟨-, answers⟩ := reads s x
    obtain ⟨p, -, -, run⟩ := answers inside
    exact run ▸ completesWith_ok rfl _
  · obtain ⟨-, reads⟩ := readsyncAnswersInEveryState
    obtain ⟨-, answers⟩ := reads s x
    exact answers inside ▸ completesWith_ok rfl _

end success

/-- Every command word completes with the first cause of R143 that applies, and with OK when none does. -/
theorem runWord_completesWith {s : State} (before : StateInv s) (w : Word) :
    CompletesWith (expectedStatus s w) s (runWord w s) := by
  have opcode {op : BitVec 4} (h : (opcodeField w).toNat = op.toNat) : opcodeField w = op := BitVec.eq_of_toNat_eq h
  unfold expectedStatus
  split_ifs with reserved illegal range overflow short unwritten
  · rw [runWord_of_reserved reserved]
    exact completesWith_failed .illegalOpcode s
  · rw [runWord_of_illegalInFields illegal]
    exact completesWith_failed .illegalField s
  · obtain ⟨indexed, out⟩ := range
    obtain ⟨command, row⟩ := exists_row (mem_fst_opcodesI _ indexed)
    rw [runWord_command (decode_legal_opcodesI row illegal), exec_index_of_ge row out]
    exact completesWith_failed .range s
  · obtain ⟨op, above⟩ := overflow
    have op : opcodeField w = 0x2 := opcode op
    rw [runWord_command (decode_legal_push op illegal), exec_push_of_overflow (count_of_legal_push op illegal) above]
    exact completesWith_failed .overflow s
  · obtain ⟨op, incomplete⟩ := short
    have row : (opcodeField w, Instr.readsym) ∈ opcodesI := by simp [opcodesI, opcode (op := 0x3) op]
    have inside := Nat.lt_of_not_le fun out => range ⟨toNat_mem_of_opcodesI row, out⟩
    rw [runWord_command (decode_legal_opcodesI row illegal),
      exec_readsym_of_incomplete (indexOf_of_lt inside) incomplete]
    exact completesWith_failed .notReady s
  · obtain ⟨op, above⟩ := unwritten
    have row : (opcodeField w, Instr.readcode) ∈ opcodesI := by simp [opcodesI, opcode (op := 0x4) op]
    have inside := Nat.lt_of_not_le fun out => range ⟨toNat_mem_of_opcodesI row, out⟩
    rw [runWord_command (decode_legal_opcodesI row illegal),
      exec_readcode_of_unwritten (indexOf_of_lt inside) above]
    exact completesWith_failed .notReady s
  · cases opcodeFormat (opcodeField w) with
    | n i row =>
      rw [runWord_command (decode_legal_opcodesN row illegal)]
      exact exec_opcodesN_completes row s
    | p op =>
      have fits : s.nin.toNat + (w.extractLsb' 16 5).toNat ≤ 81 := by simpa [op] using overflow
      rw [runWord_command (decode_legal_push op illegal), exec_push_of_fits (count_of_legal_push op illegal) fits]
      exact completesWith_ok (pushBits_responses s _) _
    | i command row =>
      have ⟨bound, _, _⟩ := before
      rw [runWord_command (decode_legal_opcodesI row illegal)]
      refine exec_opcodesI_completes row before ?_ ?_ ?_
      · exact Nat.lt_of_not_le fun out => range ⟨toNat_mem_of_opcodesI row, out⟩
      · exact fun op => le_antisymm bound (Nat.le_of_not_lt fun incomplete => short ⟨by simp [op], incomplete⟩)
      · exact fun op => Nat.lt_of_not_le fun above => unwritten ⟨by simp [op], above⟩
    | reserved above => exact absurd above reserved

/-- Settles O43: taking the word from the host's events leaves the state that decides its status. -/
theorem statusIsTheFirstCauseThatApplies : Obligations.StatusIsTheFirstCauseThatApplies := by
  intro s w rest before inputs
  rw [step_cons inputs]
  exact runWord_completesWith (s := { s with inputs := rest }) before w

end Sys2Proof.Machine

/-! SUPPORT. Reset and hazards (70_reset_and_hazards.md): what a reset leaves, with or without a command outstanding
(R170, R172), what a read answers right after a PUSH (R174), and how long a complete frame stays readable (R179). -/

namespace Sys2Proof.Machine

/-! ### Waiting and reset (R170, R172, R179) -/

/-- Settles O23: the block waits when the host does nothing. -/
theorem stepWithoutEventWaits : Obligations.StepWithoutEventWaits := fun _ => step_nil

section reset
variable {s t : State} {rest : List HostEvent}

/-- A step on a reset clears the state and answers nothing (R170). -/
theorem step_reset (inputs : s.inputs = .reset :: rest) : step s = .next { s with inputs := rest }.clear :=
  (step_cons inputs).trans (runReset_eq _)

theorem ResetState.cb_get (h : ResetState s) (i : Fin 162) : s.cb.get i = none := by
  obtain ⟨-, -, cb, -⟩ := h
  simp [cb, State.reset, Vector.get_eq_getElem]

theorem ResetState.done (h : ResetState s) : s.done = false := by
  obtain ⟨-, nin, -, -⟩ := h
  rw [State.done, nin]
  rfl

theorem ResetState.statusWord (h : ResetState s) : statusWord s = 0x00000000#32 := by
  have done := h.done
  obtain ⟨-, nin, -, lasterr⟩ := h
  rw [Machine.statusWord, done, nin, lasterr]
  rfl

/-- Two states that a reset leaves agree on the architectural state. -/
theorem ResetState.sameArch (h : ResetState s) (h' : ResetState t) : SameArch s t := SameArch.trans h (SameArch.symm h')

end reset

/-- Settles O57: reset and CLEAR both leave the cleared state, which is the state the machine starts in. -/
theorem resetLeavesTheResetState : Obligations.ResetLeavesTheResetState := by
  have start : ResetState State.reset := ⟨rfl, rfl, rfl, rfl⟩
  refine ⟨fun s rest inputs => ?_, rfl, rfl, start.cb_get, rfl⟩
  have after : ResetState { s with inputs := rest }.clear := resetState_clear _
  exact ⟨_, step_reset inputs, rfl, rfl, after.cb_get, rfl, rfl, rfl, after.done, after.statusWord,
    s.clear.respond .ok 0, rfl, after.sameArch (resetState_clear s)⟩

/-- Settles O58: the reset erases whatever the command did to the architectural state, and what is left of the command
is its one response, or nothing. -/
theorem resetDuringACommandLeavesTheResetState : Obligations.ResetDuringACommandLeavesTheResetState := by
  intro s w rest inputs
  obtain ⟨c, r, command, response, -⟩ :=
    everyCommandWordGetsOneResponse { s with inputs := .command w :: rest } w rest rfl
  obtain ⟨u, -, first, -, then_reset⟩ :=
    everyCommandWordGetsOneResponse { s with inputs := .command w :: .reset :: rest } w (.reset :: rest) rfl
  rw [step_cons rfl] at command
  refine ⟨_, u, _, (step_cons inputs).trans (runResetDuring_eq command), resetState_clear s, rfl, ?_, first,
    step_reset then_reset, resetState_clear s⟩
  cases Config.responseSurvives s.draws with
  | false => exact .inl rfl
  | true => exact .inr ⟨r, response⟩

/-! ### A read right after a PUSH (R174) -/

/-- Settles O42: the PUSH writes the coded bits of its bits from `2 × NIN` on, and the read looks at the buffer that
the PUSH left; READSYM `j` reads the same entry, that of index `INV[j]`, once the frame is complete. -/
theorem readRightAfterPushSeesTheNewBits : Obligations.ReadRightAfterPushSeesTheNewBits := by
  intro s n d x h _ low high fits above below
  obtain ⟨-, push⟩ := pushConsumesAllItsBitsOrNone
  obtain ⟨consumes, -, -⟩ := push s n d low high
  obtain ⟨t, run, -, nin, cb, -⟩ := consumes fits
  obtain ⟨b, bit⟩ : ∃ b, (convFrom s.acc (pushBitsOf n d))[x.toNat - 2 * s.nin.toNat]? = some b :=
    ⟨_, List.getElem?_eq_getElem (by rw [convFrom_length, pushBitsOf_length]; omega)⟩
  have entry : t.cb.get ⟨x.toNat, h⟩ = some b := by rw [cb, if_pos ⟨above, below⟩, bit]
  refine ⟨t, b, run, bit, ?_, fun complete j place => ?_⟩
  · rw [exec_readcode_of_written (indexOf_of_lt h) (nin ▸ below) entry, BitVec.ofNat_toNat]
  · rw [exec_readsym_of_complete (indexOf_ofNat j) (nin.trans complete) (place ▸ entry), ← composeBit_toNat,
      BitVec.ofNat_toNat]

/-! ### A complete frame (R179) -/

/-- A complete frame has no room for a PUSH, so no word but CLEAR changes its bits (R103, R110). -/
theorem frameAfterWord_of_complete (m : Message) {w : Word} (notClear : w ≠ 0x10000000#32) :
    frameAfterWord m.toList w = m.toList := by
  refine frameAfterWord_eq_self (mt decode_eq_clear_iff.mp notClear) fun n d word fits => ?_
  obtain ⟨low, -⟩ := pushCountLegal_eq_true.mp (decode_push word)
  rw [Vector.length_toList] at fits
  omega

/-- Settles O56: a step on a word but CLEAR keeps the bits of the frame, and a state that holds them answers them. -/
theorem completeFrameStaysReadable : Obligations.CompleteFrameStaysReadable := by
  refine fun m s holds => ⟨holds.exec_readsym, fun w rest inputs notClear => ?_⟩
  obtain ⟨t, run⟩ := exists_step_eq_next s
  have after : Holds (frameAfterWord m.toList w) t := everyStepKeepsTheFrame _ s t _ rest holds inputs run
  rw [frameAfterWord_of_complete m notClear] at after
  exact ⟨t, run, after⟩

end Sys2Proof.Machine
